-- ==== Sys2Proof/Word.lean ====
section
/-! DEFINITION. Word.lean: the byte, the 32-bit register value and the fixed-length byte arrays of the engine
(00_scope.md rules R8, R10; 10_state.md rule R20). Every value of this hardware is unsigned; the only arithmetic on
these types is bitwise exclusive or, which `BitVec` supplies as `^^^`. -/

namespace Sys2Proof

/-- A byte, an integer 0..255 (rule R8). -/
abbrev Byte := BitVec 8

/-- The value of a 32-bit register, or the data of a bus access (rules R61, R62). -/
abbrev Word32 := BitVec 32

/-- A byte array of exactly `n` bytes; index 0 is the first byte (rule R67). -/
abbrev Bytes (n : Nat) := Vector Byte n

/-- A Word: exactly 4 bytes `(b0, b1, b2, b3)` (rule R10). -/
abbrev Word := Bytes 4

/-- A block: exactly 16 bytes, byte `4c + r` being row `r`, column `c` (rules R10, R21). -/
abbrev Block := Bytes 16

/-- The CTR nonce: exactly 8 bytes (rule R30). -/
abbrev Nonce := Bytes 8

/-- The expanded key: 44 Words, 11 round keys, 176 bytes (rule R27). -/
abbrev Schedule := Bytes 176

end Sys2Proof
end

