-- ==== Sys2Proof/Syntax.lean ====
section
/-! DEFINITION. Syntax.lean: the 27 commands of 30_encoding.md rule R94, one constructor per row of
spec/opcode_table.json, with the immediate operands of rule R92. -/

namespace Sys2Proof

/-- A command of the engine (rule R94). Operands are the unsigned bytes `a = w[15:8]` and `b = w[23:16]` (rule R92). -/
inductive Instr where
  -- 0x0_ system
  | nop
  | clear
  -- 0x1_ field and S-box unit
  | gfmul (a b : Byte)
  | sbox (a : Byte)
  | isbox (a : Byte)
  -- 0x2_ word unit and key-schedule expander
  | wxor
  | rotword
  | subword
  | rcon (a : Byte)
  | keyexpand
  -- 0x3_ state-array round primitives
  | addroundkey (a : Byte)
  | subbytes
  | invsubbytes
  | shiftrows
  | invshiftrows
  | mixcolumns
  | invmixcolumns
  -- 0x4_ block cipher sequencer
  | encblock
  | decblock
  -- 0x5_ padding unit
  | pad
  | strip
  -- 0x6_ mode controller
  | ecbenc
  | ecbdec
  | cbcenc
  | cbcdec
  | ctrxor
  | ctredit
  deriving DecidableEq, Repr

end Sys2Proof
end

