-- ==== Sys2Proof/WellFormed.lean ====
section
/-! DEFINITION. WellFormed.lean: the operand constraints of 30_encoding.md rules R92 and R94. A term that fails a
check has no legal encoding: its word is illegal (rule R96). -/

namespace Sys2Proof

/-- `1 <= a <= 10` for RCON and `a <= 10` for ADDROUNDKEY (rule R92); every other command is legal at every operand. -/
def Instr.wf : Instr → Bool
  | .rcon a => decide (1 ≤ a.toNat) && decide (a.toNat ≤ 10)
  | .addroundkey a => decide (a.toNat ≤ 10)
  | .gfmul _ _ => true
  | .sbox _ => true
  | .isbox _ => true
  | .nop => true
  | .clear => true
  | .wxor => true
  | .rotword => true
  | .subword => true
  | .keyexpand => true
  | .subbytes => true
  | .invsubbytes => true
  | .shiftrows => true
  | .invshiftrows => true
  | .mixcolumns => true
  | .invmixcolumns => true
  | .encblock => true
  | .decblock => true
  | .pad => true
  | .strip => true
  | .ecbenc => true
  | .ecbdec => true
  | .cbcenc => true
  | .cbcdec => true
  | .ctrxor => true
  | .ctredit => true

end Sys2Proof
end

