-- ==== Sys2Proof/Decode.lean ====
section
/-! DEFINITION. Decode.lean: the decoder of 30_encoding.md rules R90 to R97, total on every 32-bit word, and the
encoder written from the same table. "Decoding reads no state: whether a word is legal depends on the word alone"
(rule R95). -/

namespace Sys2Proof

/-! ### The fields of a command word (rule R90) -/

/-- OP, bits 7:0. -/
def opField (w : Word32) : Byte := w.extractLsb' 0 8
/-- A, bits 15:8. -/
def aField (w : Word32) : Byte := w.extractLsb' 8 8
/-- B, bits 23:16. -/
def bField (w : Word32) : Byte := w.extractLsb' 16 8
/-- Z, bits 31:24, must be zero. -/
def zField (w : Word32) : Byte := w.extractLsb' 24 8

/-- The three formats of rule R91, which differ in the operand fields that must be zero. -/
inductive Format where
  /-- No operand: A and B must be 0. -/
  | N
  /-- One operand `a`: B must be 0. -/
  | A
  /-- Two operands `a` and `b`. -/
  | AB
  deriving DecidableEq, Repr

/-- One row of the opcode table (rule R94): the opcode byte, the format, and the command the operands `a`, `b` give. -/
structure OpcodeRow where
  op : Byte
  fmt : Format
  build : Byte → Byte → Instr

/-- 0x0_ system and 0x1_ field and S-box unit (rules R93, R94). -/
def opcodeRowsField : List OpcodeRow :=
  [⟨0x00#8, .N, fun _ _ => .nop⟩, ⟨0x01#8, .N, fun _ _ => .clear⟩,
   ⟨0x10#8, .AB, fun a b => .gfmul a b⟩, ⟨0x11#8, .A, fun a _ => .sbox a⟩, ⟨0x12#8, .A, fun a _ => .isbox a⟩]

/-- 0x2_ word unit and key-schedule expander. -/
def opcodeRowsWord : List OpcodeRow :=
  [⟨0x20#8, .N, fun _ _ => .wxor⟩, ⟨0x21#8, .N, fun _ _ => .rotword⟩, ⟨0x22#8, .N, fun _ _ => .subword⟩,
   ⟨0x23#8, .A, fun a _ => .rcon a⟩, ⟨0x24#8, .N, fun _ _ => .keyexpand⟩]

/-- 0x3_ state-array round primitives. -/
def opcodeRowsRounds : List OpcodeRow :=
  [⟨0x30#8, .A, fun a _ => .addroundkey a⟩, ⟨0x31#8, .N, fun _ _ => .subbytes⟩, ⟨0x32#8, .N, fun _ _ => .invsubbytes⟩,
   ⟨0x33#8, .N, fun _ _ => .shiftrows⟩, ⟨0x34#8, .N, fun _ _ => .invshiftrows⟩, ⟨0x35#8, .N, fun _ _ => .mixcolumns⟩,
   ⟨0x36#8, .N, fun _ _ => .invmixcolumns⟩]

/-- 0x4_ block cipher sequencer, 0x5_ padding unit, 0x6_ mode controller. -/
def opcodeRowsModes : List OpcodeRow :=
  [⟨0x40#8, .N, fun _ _ => .encblock⟩, ⟨0x41#8, .N, fun _ _ => .decblock⟩,
   ⟨0x50#8, .N, fun _ _ => .pad⟩, ⟨0x51#8, .N, fun _ _ => .strip⟩,
   ⟨0x60#8, .N, fun _ _ => .ecbenc⟩, ⟨0x61#8, .N, fun _ _ => .ecbdec⟩, ⟨0x62#8, .N, fun _ _ => .cbcenc⟩,
   ⟨0x63#8, .N, fun _ _ => .cbcdec⟩, ⟨0x64#8, .N, fun _ _ => .ctrxor⟩, ⟨0x65#8, .N, fun _ _ => .ctredit⟩]

/-- The complete opcode table: "These are 27 commands; there are no others" (rule R94). -/
def opcodeRows : List OpcodeRow :=
  opcodeRowsField ++ opcodeRowsWord ++ opcodeRowsRounds ++ opcodeRowsModes

/-- Why a word is an illegal encoding (rule R96), in the order of the steps of rule R95. -/
inductive DecodeError where
  /-- Step (1): `w[31:24] != 0`. -/
  | zFieldNonzero
  /-- Step (2): the opcode byte is not in rule R94. -/
  | unknownOpcode
  /-- Step (3): a must-be-zero operand field is not zero. -/
  | operandFieldNonzero
  /-- Step (4): the row's operand constraint fails. -/
  | operandOutOfRange
  deriving DecidableEq, Repr

/-- The must-be-zero operand fields of a format are zero in `w` (rule R91). -/
def Format.admits (f : Format) (w : Word32) : Bool :=
  match f with
  | .N => aField w == 0#8 && bField w == 0#8
  | .A => bField w == 0#8
  | .AB => true

/-- The decoding procedure of rule R95. -/
def decode (w : Word32) : Except DecodeError Instr :=
  if zField w ≠ 0#8 then .error .zFieldNonzero
  else
    match opcodeRows.find? (fun row => row.op == opField w) with
    | none => .error .unknownOpcode
    | some row =>
      if row.fmt.admits w then
        if (row.build (aField w) (bField w)).wf then .ok (row.build (aField w) (bField w))
        else .error .operandOutOfRange
      else .error .operandFieldNonzero

/-! ### The encoder -/

/-- The word `OP + (a << 8) + (b << 16)`, Z zero (rules R90, R98). -/
def packWord (op a b : Byte) : Word32 := 0#8 ++ b ++ a ++ op

/-- The command word of a command (rule R94). -/
def encode : Instr → Word32
  | .nop => packWord 0x00#8 0#8 0#8
  | .clear => packWord 0x01#8 0#8 0#8
  | .gfmul a b => packWord 0x10#8 a b
  | .sbox a => packWord 0x11#8 a 0#8
  | .isbox a => packWord 0x12#8 a 0#8
  | .wxor => packWord 0x20#8 0#8 0#8
  | .rotword => packWord 0x21#8 0#8 0#8
  | .subword => packWord 0x22#8 0#8 0#8
  | .rcon a => packWord 0x23#8 a 0#8
  | .keyexpand => packWord 0x24#8 0#8 0#8
  | .addroundkey a => packWord 0x30#8 a 0#8
  | .subbytes => packWord 0x31#8 0#8 0#8
  | .invsubbytes => packWord 0x32#8 0#8 0#8
  | .shiftrows => packWord 0x33#8 0#8 0#8
  | .invshiftrows => packWord 0x34#8 0#8 0#8
  | .mixcolumns => packWord 0x35#8 0#8 0#8
  | .invmixcolumns => packWord 0x36#8 0#8 0#8
  | .encblock => packWord 0x40#8 0#8 0#8
  | .decblock => packWord 0x41#8 0#8 0#8
  | .pad => packWord 0x50#8 0#8 0#8
  | .strip => packWord 0x51#8 0#8 0#8
  | .ecbenc => packWord 0x60#8 0#8 0#8
  | .ecbdec => packWord 0x61#8 0#8 0#8
  | .cbcenc => packWord 0x62#8 0#8 0#8
  | .cbcdec => packWord 0x63#8 0#8 0#8
  | .ctrxor => packWord 0x64#8 0#8 0#8
  | .ctredit => packWord 0x65#8 0#8 0#8

/-- The command an opcode-table word stands for: the word is one 32-bit number written to CMD, and the bits above
`nbits` are zero. The host's question about a table row; `none` where the decoder rejects. -/
def decodeTableWord (nbits w : Nat) : Option Instr :=
  match decode (BitVec.ofNat 32 (w % 2 ^ nbits)) with
  | .ok i => some i
  | .error _ => none

end Sys2Proof
end

