-- ==== Sys2Proof/Config.lean ====
section
/-! DEFINITION. Config.lean: the parameters of 00_scope.md rule R6 that the spec marks OPEN. KEY_BYTES = 16,
BLOCK_BYTES = 16, ROUNDS = 10, RK_WORDS = 44, NONCE_BYTES = 8, IV_BYTES = 16 and COUNTER_BITS = 64 are fixed by the
spec and stand as literals where the rules use them. The four OPEN parameters are arguments of the model: they are
fields of `Params`, which State carries and no step changes, so that a theorem over every state holds for every
value of them (log entry 1). No value of this hardware is left free (93_implementation_defined.md part 1: no
behaviour is `any value`), so there is no opaque constant here. -/

namespace Sys2Proof

/-- BUS_FAULT_RESPONSE: what the host sees on an access the engine does not admit (20_memory.md rule R66: "a bus
error, zero data, a hang of the bus"; "a model should treat such an access as refused (no meaning)"). -/
inductive BusFaultResponse where
  /-- The step has no meaning: the treatment rule R66 asks of a model, and the default. -/
  | refuse
  /-- The host sees a bus error; the engine goes on. -/
  | busError
  /-- A read returns zero data, a write completes; the engine goes on. -/
  | zeroData
  /-- The access never completes. -/
  | hang
  deriving DecidableEq, Repr

/-- The OPEN parameters of rule R6. -/
structure Params where
  /-- MSG_CAP, the capacity of IBUF and XBUF in bytes. -/
  MSG_CAP : Nat
  /-- CTR_BIG_ENDIAN, the byte order of the CTR block counter (45_modes.md rule R195). -/
  CTR_BIG_ENDIAN : Bool
  /-- BASE, the bus address of the engine's offset 0 (20_memory.md rules R60, R70). -/
  BASE : Nat
  /-- BUS_FAULT_RESPONSE (20_memory.md rule R66). -/
  BUS_FAULT_RESPONSE : BusFaultResponse
  deriving DecidableEq, Repr

/-- The defaults of rule R6 (MSG_CAP 4096, CTR_BIG_ENDIAN false) and of rule R66 (refuse). BASE has no default in the
spec and "no rule depends on its value": 0 here is a DESIGN CHOICE (log entry 2). -/
def Params.default : Params :=
  { MSG_CAP := 4096, CTR_BIG_ENDIAN := false, BASE := 0, BUS_FAULT_RESPONSE := .refuse }

/-- What rule R6 asks of MSG_CAP: "any multiple of 16 with 16 <= MSG_CAP <= 65520". -/
abbrev Params.Legal (p : Params) : Prop :=
  p.MSG_CAP % 16 = 0 ∧ 16 ≤ p.MSG_CAP ∧ p.MSG_CAP ≤ 65520

end Sys2Proof
end

