-- ==== Sys2Proof/Machine/State.lean ====
section
/-! DEFINITION. Machine/State.lean: the complete architectural state of 10_state.md rule R20 as plain data, the
model's own host side (accesses waiting on the bus, answers the host has received), the reasons a step can stop, and
the reset state of rules R50 and R261. -/

namespace Sys2Proof.Machine

/-- The outcome codes of STATUS.ERR (10_state.md rule R25, 60_exceptions.md rule R221); "values 7..15 never occur". -/
inductive Err where
  | ok
  | invalidKeyLength
  | invalidIvOrNonceLength
  | paddingError
  | illegalCommand
  | noKey
  | rangeError
  deriving DecidableEq, Repr

/-- What reaches the engine from outside, in the one total order of rule R73. Addresses are bus addresses; the
engine's window begins at BASE. `n` is the width in bytes: only 1 and 4 are ever admitted (rules R61, R64). -/
inductive BusEvent where
  /-- `MemRead(addr, n)` by the host. -/
  | read (addr n : Nat)
  /-- `MemWrite(addr, n, v)` by the host. -/
  | write (addr n : Nat) (v : Word32)
  /-- A platform reset between accesses (rule R260). -/
  | reset
  /-- A platform reset that arrives while the command of a write of `w` to CMD is executing (rule R263). -/
  | resetDuring (w : Word32)
  deriving DecidableEq, Repr

/-- What the host has seen of an access. -/
inductive Reply where
  /-- A write completed. -/
  | done
  /-- The data of a 32-bit read. -/
  | word (v : Word32)
  /-- The data of a byte read. -/
  | byte (b : Byte)
  /-- The platform's answer to a read that the engine does not admit, when BUS_FAULT_RESPONSE is zero data. -/
  | zeroData
  /-- The platform's answer to an access that the engine does not admit, when BUS_FAULT_RESPONSE is a bus error. -/
  | busError
  deriving DecidableEq, Repr

/-- A large byte buffer as (index, byte) pairs, indices strictly rising, no entry 0x00: an index that is not listed
reads 0x00, the reset contents (rule R261). `Memory.Canonical` says the form. -/
abbrev Memory := List Host.Cell

/-- The machine. The fields from S to XOFF are rule R20's list, each under the spec's own name; CMD holds nothing
(rule R34), and STATUS is its two fields ERR and RKV (rule R25). `params`, `pending` and `replies` are the MODEL's own
fields (log entries 1 and 3). -/
structure State where
  /-- The OPEN parameters of rule R6, fixed for the machine. -/
  params : Params
  /-- S, the state array (rule R21). -/
  S : Block
  /-- WA, operand and result of the word unit (rule R23). -/
  WA : Word
  /-- WB, second operand of the word unit (rule R23). -/
  WB : Word
  /-- RK, the expanded key (rule R27). -/
  RK : Schedule
  /-- KEYBUF, the cipher key (rule R29). -/
  KEYBUF : Block
  /-- IVBUF, the CBC initialisation vector (rule R30). -/
  IVBUF : Block
  /-- NBUF, the CTR nonce (rule R30). -/
  NBUF : Nonce
  /-- IBUF, the input message, MSG_CAP bytes (rule R31). -/
  IBUF : Memory
  /-- OBUF, the output message, MSG_CAP + 16 bytes (rule R32). -/
  OBUF : Memory
  /-- XBUF, the replacement bytes of CTREDIT, MSG_CAP bytes (rule R33). -/
  XBUF : Memory
  /-- STATUS.ERR, bits 3:0 of STATUS (rule R25). -/
  ERR : Err
  /-- STATUS.RKV, bit 8 of STATUS: RK is the expansion of the key in KEYBUF (rule R28). -/
  RKV : Bool
  /-- RES, bits 7:0; bits 31:8 are not implemented and read 0 (rule R26). -/
  RES : Byte
  /-- KLEN, bits 7:0; bits 31:8 are not implemented and read 0 (rule R29). -/
  KLEN : Byte
  /-- IVLEN, bits 7:0, as KLEN (rule R30). -/
  IVLEN : Byte
  /-- NLEN, bits 7:0, as KLEN (rule R30). -/
  NLEN : Byte
  /-- ILEN (rule R31). -/
  ILEN : Word32
  /-- OLEN (rule R32). -/
  OLEN : Word32
  /-- XLEN (rule R33). -/
  XLEN : Word32
  /-- XOFF (rule R33). -/
  XOFF : Word32
  /-- MODEL: the accesses and resets still to come, in bus order, next first (rule R73). -/
  pending : List BusEvent
  /-- MODEL: what the host has received, latest first. -/
  replies : List Reply
  deriving DecidableEq, Repr

/-- Why the machine stops. The engine itself never stops: "there is no input on which it hangs, locks up or behaves
unpredictably" (rule R223); an error is a next state with a code in STATUS.ERR. -/
inductive Fault where
  /-- Raised by the bus, never by a command: an access the engine does not admit, on a platform whose
  BUS_FAULT_RESPONSE is "a hang of the bus" (rule R66). Safe: the model stops where the host is stuck. -/
  | busHang
  deriving DecidableEq, Repr

/-- Why a step has no meaning. -/
inductive Refusal where
  /-- Raised by an arm of `exec` for an instruction with no meaning yet. Safe. No arm raises it: all are modelled. -/
  | notModelled (mnemonic : String)
  /-- Raised by the bus, never by a command: an access the engine does not admit, on a platform whose
  BUS_FAULT_RESPONSE is left open ("a model should treat such an access as refused (no meaning)", rule R66). Safe. -/
  | accessNotAdmitted
  deriving DecidableEq, Repr

/-- A byte array of zero bytes. -/
def zeros (n : Nat) : Bytes n := Vector.replicate n 0#8

/-- The reset state of rules R50 and R261 for given parameters: every byte 0x00 and every register 0, so ERR = 0 and
RKV = 0. -/
def State.resetWith (p : Params) : State where
  params := p
  S := zeros 16
  WA := zeros 4
  WB := zeros 4
  RK := zeros 176
  KEYBUF := zeros 16
  IVBUF := zeros 16
  NBUF := zeros 8
  IBUF := []
  OBUF := []
  XBUF := []
  ERR := .ok
  RKV := false
  RES := 0
  KLEN := 0
  IVLEN := 0
  NLEN := 0
  ILEN := 0
  OLEN := 0
  XLEN := 0
  XOFF := 0
  pending := []
  replies := []

/-- The machine right after reset, with the default parameters and nothing waiting on the bus (rules R261, R262). -/
def State.reset : State := State.resetWith Params.default

end Sys2Proof.Machine
end

