-- ==== Sys2Proof/Machine/Flags.lean ====
section
/-! DEFINITION. Machine/Flags.lean: STATUS, its two fields, and everything that writes them (10_state.md rules R25,
R28; 60_exceptions.md rules R221, R224). The engine has no condition codes: "no flags register apart from STATUS"
(rule R20). -/

namespace Sys2Proof.Machine

/-- The numeric code of an outcome (rule R221). -/
def Err.code : Err → BitVec 4
  | .ok => 0
  | .invalidKeyLength => 1
  | .invalidIvOrNonceLength => 2
  | .paddingError => 3
  | .illegalCommand => 4
  | .noKey => 5
  | .rangeError => 6

/-- STATUS as the host reads it: ERR in bits 3:0, RKV in bit 8, all other bits 0 (rule R25). -/
def State.statusWord (s : State) : Word32 := 0#23 ++ BitVec.ofBool s.RKV ++ 0#4 ++ s.ERR.code

/-- A command that completes normally: `STATUS.ERR <- 0` (rules R25, R220). -/
def State.complete (s : State) : State := { s with ERR := .ok }

/-- RKV is cleared by any host write to KEYBUF or KLEN (rule R28). -/
def State.clearRkv (s : State) : State := { s with RKV := false }

end Sys2Proof.Machine
end

