-- ==== Sys2Proof/Machine/Ops.lean ====
section
/-! DEFINITION. Machine/Ops.lean: the shared operations: bytes of an array, the large buffers, raising an error, the
output buffer, the registers and arrays as the host sees them through the window (20_memory.md rules R60 to R72), and
reset. -/

namespace Sys2Proof.Machine

/-! ### Fixed-length byte arrays -/

/-- Byte `i` of an array. Every command reads below the array's size (rule R72); the 0 beyond it is never used. -/
def byteAt {n : Nat} (v : Bytes n) (i : Nat) : Byte := v[i]?.getD 0#8

/-- `A[i] <- b`; no byte changes when `i` is not below the array's size. -/
def setByte {n : Nat} (v : Bytes n) (i : Nat) (b : Byte) : Bytes n := v.setIfInBounds i b

/-- Exclusive or of two byte sequences of equal length, byte by byte (rule R8). -/
@[irreducible] def xorBytes {n : Nat} (u v : Bytes n) : Bytes n := Vector.ofFn fun i => u[i] ^^^ v[i]

/-! ### The large buffers -/

/-- The byte at an index; 0x00, the reset contents, where nothing is listed (rule R261). -/
def Memory.read : Memory → Nat → Byte
  | [], _ => 0#8
  | (k, x) :: m, a => if k = a then x else Memory.read m a

/-- Write one byte, keeping the canonical form: writing 0x00 removes the entry. -/
def Memory.write : Memory → Nat → Byte → Memory
  | [], a, b => if b = 0#8 then [] else [(a, b)]
  | (k, x) :: m, a, b =>
    if a < k then (if b = 0#8 then (k, x) :: m else (a, b) :: (k, x) :: m)
    else if a = k then (if b = 0#8 then m else (a, b) :: m)
    else (k, x) :: Memory.write m a b

/-- Write the bytes of `bs` at indices `a`, `a + 1`, … -/
def Memory.writeBytes : Memory → Nat → List Byte → Memory
  | m, _, [] => m
  | m, a, b :: bs => Memory.writeBytes (Memory.write m a b) (a + 1) bs

/-- The first `n` bytes, index 0 first (rule R67). -/
def Memory.readBytes (m : Memory) (n : Nat) : List Byte := (List.range n).map (Memory.read m)

/-- The canonical form: indices strictly rising, and no entry equal to what an unlisted index reads as. -/
abbrev Memory.Canonical (m : Memory) : Prop :=
  m.Pairwise (fun c d => c.1 < d.1) ∧ ∀ c ∈ m, c.2 ≠ 0#8

/-- `Memory.Canonical` as a Bool. -/
def Memory.wf (m : Memory) : Bool := decide (Memory.Canonical m)

/-- Every listed index is below the buffer's capacity. -/
abbrev Memory.Within (m : Memory) (cap : Nat) : Prop := ∀ c ∈ m, c.1 < cap

/-! ### Errors -/

/-- `raise E` (rule R224), the engine's only exceptional event: (a) STATUS.ERR takes the code; (b) `output` says that
the command is one that produces output in OBUF (PAD, STRIP and the six mode commands), whose OLEN becomes 0 while
OBUF keeps its bytes; (c) what the command wrote before the raise is already in `s` and stands. "An error saves no state
anywhere, changes no mode or mask, pushes nothing, and transfers control nowhere" (rule R240). There is no return from
an error to model: "Trap return is the next CMD write" (rule R241), which the next step serves. -/
def raise (output : Bool) (e : Err) (s : State) : State :=
  { s with ERR := e, OLEN := if output then 0 else s.OLEN }

/-- The word written to CMD is an illegal encoding: "STATUS.ERR <- 4 and nothing else changes, not even OLEN" (rules
R96, R224(d), R230). -/
def raiseIllegal (s : State) : State := raise false .illegalCommand s

/-! ### Output -/

/-- The result of a successful output-producing command: `OBUF[0..len(r)) <- r`, `OLEN <- len(r)`; bytes of OBUF at and
beyond `len(r)` keep their values (rule R32). -/
def State.putOutput (r : List Byte) (s : State) : State :=
  { s with OBUF := Memory.writeBytes s.OBUF 0 r, OLEN := BitVec.ofNat 32 r.length }

/-! ### The window's address map (rule R70) -/

/-- The ten 32-bit registers. -/
inductive Reg where
  | CMD | STATUS | RES | KLEN | IVLEN | NLEN | ILEN | OLEN | XLEN | XOFF
  deriving DecidableEq, Repr

/-- The ten byte arrays. -/
inductive Arr where
  | S | WA | WB | KEYBUF | IVBUF | NBUF | RK | IBUF | OBUF | XBUF
  deriving DecidableEq, Repr

/-- Offset of a register from BASE (rule R70). -/
def Reg.offset : Reg → Nat
  | .CMD => 0x00
  | .STATUS => 0x04
  | .RES => 0x08
  | .KLEN => 0x0C
  | .IVLEN => 0x10
  | .NLEN => 0x14
  | .ILEN => 0x18
  | .OLEN => 0x1C
  | .XLEN => 0x20
  | .XOFF => 0x24

/-- Offset of a byte array's byte 0 from BASE (rule R70). -/
def Arr.offset : Arr → Nat
  | .S => 0x00040
  | .WA => 0x00050
  | .WB => 0x00054
  | .KEYBUF => 0x00060
  | .IVBUF => 0x00070
  | .NBUF => 0x00080
  | .RK => 0x00100
  | .IBUF => 0x10000
  | .OBUF => 0x20000
  | .XBUF => 0x30000

/-- Size of a byte array in bytes (rules R20, R70). -/
def Arr.size (p : Params) : Arr → Nat
  | .S => 16
  | .WA => 4
  | .WB => 4
  | .KEYBUF => 16
  | .IVBUF => 16
  | .NBUF => 8
  | .RK => 176
  | .IBUF => p.MSG_CAP
  | .OBUF => p.MSG_CAP + 16
  | .XBUF => p.MSG_CAP

/-- The registers in the map's order. -/
def Reg.all : List Reg := [.CMD, .STATUS, .RES, .KLEN, .IVLEN, .NLEN, .ILEN, .OLEN, .XLEN, .XOFF]

/-- The byte arrays in the map's order. -/
def Arr.all : List Arr := [.S, .WA, .WB, .KEYBUF, .IVBUF, .NBUF, .RK, .IBUF, .OBUF, .XBUF]

/-- The register at an offset, if one stands there. -/
def regAt (off : Nat) : Option Reg := Reg.all.find? (fun r => r.offset == off)

/-- The byte array an offset lies in and the index in it, if one does. -/
def arrAt (p : Params) (off : Nat) : Option (Arr × Nat) :=
  (Arr.all.find? (fun A => decide (A.offset ≤ off) && decide (off < A.offset + A.size p))).map
    (fun A => (A, off - A.offset))

/-- The size of the window in bytes: offsets 0x00000..0x3FFFF (rule R60). -/
def windowSize : Nat := 0x40000

/-- The window offset of a bus address, if the window holds it (rules R60, R70). -/
def windowOffset (p : Params) (addr : Nat) : Option Nat :=
  if p.BASE ≤ addr ∧ addr < p.BASE + windowSize then some (addr - p.BASE) else none

/-- What an admitted access reaches. -/
inductive Loc where
  | reg (r : Reg)
  | byte (A : Arr) (i : Nat)
  deriving DecidableEq, Repr

/-- The location an access of `n` bytes at a bus address is admitted to: a 32-bit access exactly at a register's offset
(rule R62), a byte access exactly at a byte of an array (rule R63), and no other (rules R64, R66). -/
def admitted (p : Params) (addr n : Nat) : Option Loc :=
  match windowOffset p addr with
  | none => none
  | some off =>
    if n = 4 then (regAt off).map .reg
    else if n = 1 then (arrAt p off).map (fun x => .byte x.1 x.2)
    else none

/-! ### Registers and arrays as the host reads and writes them -/

/-- `zext_32`: a byte as a 32-bit value, upper bits 0 (rule R8). -/
def zext32 (b : Byte) : Word32 := b.setWidth 32

/-- The 32-bit value a read returns (rule R62): unimplemented bits read 0, CMD reads 0 (rule R34). -/
def State.readReg (s : State) : Reg → Word32
  | .CMD => 0
  | .STATUS => s.statusWord
  | .RES => zext32 s.RES
  | .KLEN => zext32 s.KLEN
  | .IVLEN => zext32 s.IVLEN
  | .NLEN => zext32 s.NLEN
  | .ILEN => s.ILEN
  | .OLEN => s.OLEN
  | .XLEN => s.XLEN
  | .XOFF => s.XOFF

/-- A 32-bit write to a register other than CMD (rule R62): KLEN, IVLEN, NLEN store `v[7:0]`, a write to KLEN clears RKV
whatever the value (rule R28), and a write to STATUS, RES or OLEN is ignored (rule R65). CMD holds nothing (rule R34);
what a write to it runs is `Machine.command`. -/
def State.writeReg (s : State) (r : Reg) (v : Word32) : State :=
  match r with
  | .CMD => s
  | .STATUS => s
  | .RES => s
  | .KLEN => State.clearRkv { s with KLEN := v.setWidth 8 }
  | .IVLEN => { s with IVLEN := v.setWidth 8 }
  | .NLEN => { s with NLEN := v.setWidth 8 }
  | .ILEN => { s with ILEN := v }
  | .OLEN => s
  | .XLEN => { s with XLEN := v }
  | .XOFF => { s with XOFF := v }

/-- The byte a read of `A[i]` returns (rule R63). -/
def State.readByte (s : State) (A : Arr) (i : Nat) : Byte :=
  match A with
  | .S => byteAt s.S i
  | .WA => byteAt s.WA i
  | .WB => byteAt s.WB i
  | .KEYBUF => byteAt s.KEYBUF i
  | .IVBUF => byteAt s.IVBUF i
  | .NBUF => byteAt s.NBUF i
  | .RK => byteAt s.RK i
  | .IBUF => Memory.read s.IBUF i
  | .OBUF => Memory.read s.OBUF i
  | .XBUF => Memory.read s.XBUF i

/-- `A[i] <- b` by the host (rule R63): a write to any byte of KEYBUF also clears RKV, even one that stores the old value
(rule R28); a write to RK or OBUF is ignored (rule R65). -/
def State.writeByte (s : State) (A : Arr) (i : Nat) (b : Byte) : State :=
  match A with
  | .S => { s with S := setByte s.S i b }
  | .WA => { s with WA := setByte s.WA i b }
  | .WB => { s with WB := setByte s.WB i b }
  | .KEYBUF => State.clearRkv { s with KEYBUF := setByte s.KEYBUF i b }
  | .IVBUF => { s with IVBUF := setByte s.IVBUF i b }
  | .NBUF => { s with NBUF := setByte s.NBUF i b }
  | .RK => s
  | .IBUF => { s with IBUF := Memory.write s.IBUF i b }
  | .OBUF => s
  | .XBUF => { s with XBUF := Memory.write s.XBUF i b }

/-- The host receives an answer. -/
def State.reply (r : Reply) (s : State) : State := { s with replies := r :: s.replies }

/-- The engine takes its reset state (rules R260, R261, R263); the parameters, the accesses still to come and what the
host has already seen are not the engine's and stay (log entry 9). -/
def State.engineReset (s : State) : State :=
  { State.resetWith s.params with pending := s.pending, replies := s.replies }

end Sys2Proof.Machine
end

