-- ==== Sys2Proof/Machine/Operands.lean ====
section
/-! DEFINITION. Machine/Operands.lean: what the commands work on. Immediate operands are the unsigned bytes of the
command word, used as they are (30_encoding.md rule R92); every other operand is an array or a range of a buffer that
the pseudocode indexes from 0 (20_memory.md rule R72): "The only addressing mode is 'array, constant or loop index'". -/

namespace Sys2Proof.Machine

/-- The input message `IBUF[0..ILEN)` (rule R31). -/
def message (s : State) : List Byte := Memory.readBytes s.IBUF s.ILEN.toNat

/-- The message does not fit the buffer: `ILEN > MSG_CAP` (rules R31, R232). -/
def messageTooLong (s : State) : Bool := decide (s.params.MSG_CAP < s.ILEN.toNat)

/-- The range checks of CTREDIT: `XLEN > MSG_CAP or XOFF + XLEN > ILEN`, the sum "computed without wrap-around (as
integers, up to 2^33 - 2)" (rules R181, R232). -/
def editOutOfRange (s : State) : Bool :=
  decide (s.params.MSG_CAP < s.XLEN.toNat) || decide (s.ILEN.toNat < s.XOFF.toNat + s.XLEN.toNat)

/-- Block `i` of a byte sequence, `m[16i..16i+16)` (rule R67). -/
@[irreducible] def blockAt (m : List Byte) (i : Nat) : Block := Vector.ofFn fun j => m.getD (16 * i + j.val) 0#8

/-- The whole blocks of a byte sequence, first block first. -/
def blocksOf (m : List Byte) : List Block := (List.range (m.length / 16)).map (blockAt m)

/-- The concatenation of blocks, first block first. -/
def joinBlocks (bs : List Block) : List Byte := bs.flatMap (fun b => b.toList)

end Sys2Proof.Machine
end

