-- ==== Sys2Proof/Machine/KeySchedule.lean ====
section
/-! DEFINITION. Machine/KeySchedule.lean: the word unit, the round constants and the key-schedule expander
(41_word_keyschedule.md), and the meanings of WXOR, ROTWORD, SUBWORD, RCON and KEYEXPAND. -/

namespace Sys2Proof.Machine

/-- `wxor(u, v)` (rule R120). -/
def wxor (u v : Word) : Word := xorBytes u v

/-- `rotword(u) = (u1, u2, u3, u0)`: the first byte moves to the end (rule R120). -/
@[irreducible] def rotword (u : Word) : Word := Vector.ofFn fun i => byteAt u ((i.val + 1) % 4)

/-- `subword(u)`: `sbox` on each byte (rule R120). -/
@[irreducible] def subword (u : Word) : Word := Vector.ofFn fun i => sbox u[i]

/-- The sequence `rc` (rule R124). -/
def rc : List Byte := [0x01, 0x02, 0x04, 0x08, 0x10, 0x20, 0x40, 0x80, 0x1B, 0x36]

/-- `rcon(n) = (rc[n-1], 0, 0, 0)` (rule R124). The spec leaves it undefined outside 1..10 and never asks for it there:
the expander uses 1..10 and RCON rejects every other operand. -/
@[irreducible] def rcon (n : Nat) : Word := Vector.ofFn fun i => if i.val = 0 then rc.getD (n - 1) 0#8 else 0#8

/-- Word `i` of a word list; every word the expander reads is there. -/
def wordAt (ws : List Word) (i : Nat) : Word := ws.getD i (zeros 4)

/-- The body of the expander's loop at index `i`, from the words before it (rule R130). -/
def nextWord (i : Nat) (ws : List Word) : Word :=
  if i % 4 = 0 then
    wxor (wxor (wordAt ws (i - 4)) (subword (rotword (wordAt ws (i - 1))))) (rcon (i / 4))
  else wxor (wordAt ws (i - 4)) (wordAt ws (i - 1))

/-- The first `4 + k` words of the expansion (rule R130): the four words of the key, then `k` turns of the loop. -/
def expandWords (key : Block) : Nat → List Word
  | 0 => (List.range 4).map fun c => Vector.ofFn fun r => byteAt key (4 * c + r.val)
  | k + 1 => expandWords key k ++ [nextWord (k + 4) (expandWords key k)]

/-- `expand(key)`, the 44 Words in order, 176 bytes (rule R130). -/
@[irreducible] def expand (key : Block) : Schedule :=
  Vector.ofFn fun i => byteAt (wordAt (expandWords key 40) (i.val / 4)) (i.val % 4)

/-- The moment a command writes RK with `expand(KEYBUF)` and sets RKV (rules R28, R131, R181). -/
def State.expandKey (s : State) : State := { s with RK := expand s.KEYBUF, RKV := true }

/-! ### Meanings -/

/-- WXOR (rule R121). -/
def execWxor (s : State) : Host.Outcome State Fault Refusal :=
  .next (State.complete { s with WA := wxor s.WA s.WB })

/-- ROTWORD (rule R122). -/
def execRotword (s : State) : Host.Outcome State Fault Refusal :=
  .next (State.complete { s with WA := rotword s.WA })

/-- SUBWORD (rule R123). -/
def execSubword (s : State) : Host.Outcome State Fault Refusal :=
  .next (State.complete { s with WA := subword s.WA })

/-- RCON a (rule R125): an operand outside 1..10 "is an illegal encoding and raises IllegalCommand with WA unchanged". -/
def execRcon (a : Byte) (s : State) : Host.Outcome State Fault Refusal :=
  if 1 ≤ a.toNat ∧ a.toNat ≤ 10 then .next (State.complete { s with WA := rcon a.toNat })
  else .next (raiseIllegal s)

/-- KEYEXPAND (rule R131): the key-length check of rule R132 comes first. -/
def execKeyexpand (s : State) : Host.Outcome State Fault Refusal :=
  if s.KLEN ≠ 16#8 then .next (raise false .invalidKeyLength s)
  else .next (State.complete (State.expandKey s))

end Sys2Proof.Machine
end

