-- ==== Sys2Proof/Machine/Rounds.lean ====
section
/-! DEFINITION. Machine/Rounds.lean: the round primitives on a block (42_state_rounds.md), byte `4c + r` being row `r`,
column `c`, and the meanings of ADDROUNDKEY, SUBBYTES, INVSUBBYTES, SHIFTROWS, INVSHIFTROWS, MIXCOLUMNS and
INVMIXCOLUMNS. -/

namespace Sys2Proof.Machine

/-- `addroundkey(s, k) = s xor k`, byte by byte (rule R140). -/
def addroundkey (s k : Block) : Block := xorBytes s k

/-- Round key `r`, `RK[16r..16r+16)` (rule R27). -/
@[irreducible] def roundKey (rk : Schedule) (r : Nat) : Block := Vector.ofFn fun i => byteAt rk (16 * r + i.val)

/-- `subbytes(s)[i] = sbox(s[i])` (rule R142). -/
@[irreducible] def subbytes (s : Block) : Block := Vector.ofFn fun i => sbox s[i]

/-- `invsubbytes(s)[i] = isbox(s[i])` (rule R142). -/
@[irreducible] def invsubbytes (s : Block) : Block := Vector.ofFn fun i => isbox s[i]

/-- `shiftrows(s)[4c + r] = s[4((c + r) mod 4) + r]` (rule R145). -/
@[irreducible] def shiftrows (s : Block) : Block :=
  Vector.ofFn fun i => byteAt s (4 * ((i.val / 4 + i.val % 4) % 4) + i.val % 4)

/-- `invshiftrows(s)[4c + r] = s[4((c - r) mod 4) + r]` (rule R145); `c + 4 - r` keeps the difference a natural number. -/
@[irreducible] def invshiftrows (s : Block) : Block :=
  Vector.ofFn fun i => byteAt s (4 * ((i.val / 4 + 4 - i.val % 4) % 4) + i.val % 4)

/-- The forward matrix `F` (rule R148). -/
def mixMatrix : List (List Byte) := [[2, 3, 1, 1], [1, 2, 3, 1], [1, 1, 2, 3], [3, 1, 1, 2]]

/-- The inverse matrix `G` (rule R148). -/
def invMixMatrix : List (List Byte) := [[14, 11, 13, 9], [9, 14, 11, 13], [13, 9, 14, 11], [11, 13, 9, 14]]

/-- Entry `M[r][j]` of a 4 by 4 matrix. -/
def entry (M : List (List Byte)) (r j : Nat) : Byte := (M.getD r []).getD j 0#8

/-- Row `r` of the product of a matrix with column `c` of a block: the XOR of four GF(2^8) products (rule R148). -/
def mixByte (M : List (List Byte)) (s : Block) (c r : Nat) : Byte :=
  gfmul (entry M r 0) (byteAt s (4 * c)) ^^^ gfmul (entry M r 1) (byteAt s (4 * c + 1)) ^^^
    gfmul (entry M r 2) (byteAt s (4 * c + 2)) ^^^ gfmul (entry M r 3) (byteAt s (4 * c + 3))

/-- `mixcolumns(s)` (rule R148). -/
@[irreducible] def mixcolumns (s : Block) : Block := Vector.ofFn fun i => mixByte mixMatrix s (i.val / 4) (i.val % 4)

/-- `invmixcolumns(s)` (rule R148). -/
@[irreducible] def invmixcolumns (s : Block) : Block := Vector.ofFn fun i => mixByte invMixMatrix s (i.val / 4) (i.val % 4)

/-! ### Meanings -/

/-- ADDROUNDKEY a (rule R141): an operand above 10 is an illegal encoding, decided before any state is read (rule R230);
NoKey while RKV = 0 (rule R231). -/
def execAddroundkey (a : Byte) (s : State) : Host.Outcome State Fault Refusal :=
  if 10 < a.toNat then .next (raiseIllegal s)
  else if s.RKV = false then .next (raise false .noKey s)
  else .next (State.complete { s with S := addroundkey s.S (roundKey s.RK a.toNat) })

/-- SUBBYTES (rule R143). -/
def execSubbytes (s : State) : Host.Outcome State Fault Refusal :=
  .next (State.complete { s with S := subbytes s.S })

/-- INVSUBBYTES (rule R144). -/
def execInvsubbytes (s : State) : Host.Outcome State Fault Refusal :=
  .next (State.complete { s with S := invsubbytes s.S })

/-- SHIFTROWS (rule R146). -/
def execShiftrows (s : State) : Host.Outcome State Fault Refusal :=
  .next (State.complete { s with S := shiftrows s.S })

/-- INVSHIFTROWS (rule R147). -/
def execInvshiftrows (s : State) : Host.Outcome State Fault Refusal :=
  .next (State.complete { s with S := invshiftrows s.S })

/-- MIXCOLUMNS (rule R149). -/
def execMixcolumns (s : State) : Host.Outcome State Fault Refusal :=
  .next (State.complete { s with S := mixcolumns s.S })

/-- INVMIXCOLUMNS (rule R150). -/
def execInvmixcolumns (s : State) : Host.Outcome State Fault Refusal :=
  .next (State.complete { s with S := invmixcolumns s.S })

end Sys2Proof.Machine
end

