-- ==== Sys2Proof/Machine/BlockCipher.lean ====
section
/-! DEFINITION. Machine/BlockCipher.lean: the ten-round sequencer (43_block_cipher.md), and the meanings of ENCBLOCK and
DECBLOCK. The round counter is command-local and not state (rule R164). -/

namespace Sys2Proof.Machine

/-- The block after AddRoundKey(0) and encryption rounds 1..k (rule R160); the last round, 10, has no MixColumns. -/
def encRounds (rk : Schedule) (s : Block) : Nat → Block
  | 0 => addroundkey s (roundKey rk 0)
  | k + 1 =>
    if k + 1 ≠ 10 then
      addroundkey (mixcolumns (shiftrows (subbytes (encRounds rk s k)))) (roundKey rk (k + 1))
    else addroundkey (shiftrows (subbytes (encRounds rk s k))) (roundKey rk (k + 1))

/-- `encblock(s, rk)` (rule R160). -/
@[irreducible] def encblock (s : Block) (rk : Schedule) : Block := encRounds rk s 10

/-- The block after AddRoundKey(10) and `k` turns of the loop `for round in 9 downto 0` (rule R161): turn `k + 1` is
round `9 - k`, AddRoundKey comes before InvMixColumns, and round 0 has no InvMixColumns. -/
def decRounds (rk : Schedule) (s : Block) : Nat → Block
  | 0 => addroundkey s (roundKey rk 10)
  | k + 1 =>
    if 9 - k ≠ 0 then
      invmixcolumns (addroundkey (invsubbytes (invshiftrows (decRounds rk s k))) (roundKey rk (9 - k)))
    else addroundkey (invsubbytes (invshiftrows (decRounds rk s k))) (roundKey rk (9 - k))

/-- `decblock(s, rk)` (rule R161). -/
@[irreducible] def decblock (s : Block) (rk : Schedule) : Block := decRounds rk s 10

/-! ### Meanings -/

/-- ENCBLOCK (rule R162). -/
def execEncblock (s : State) : Host.Outcome State Fault Refusal :=
  if s.RKV = false then .next (raise false .noKey s)
  else .next (State.complete { s with S := encblock s.S s.RK })

/-- DECBLOCK (rule R163). -/
def execDecblock (s : State) : Host.Outcome State Fault Refusal :=
  if s.RKV = false then .next (raise false .noKey s)
  else .next (State.complete { s with S := decblock s.S s.RK })

end Sys2Proof.Machine
end

