-- ==== Sys2Proof/Machine/Padding.lean ====
section
/-! DEFINITION. Machine/Padding.lean: the PKCS#7 unit with its fixed block size 16 (44_padding.md), and the meanings of
PAD and STRIP. -/

namespace Sys2Proof.Machine

/-- The number of padding bytes, `16 - (len(m) mod 16)`, 1..16 (rule R170). -/
def padLength (len : Nat) : Nat := 16 - len % 16

/-- `pad(m)` (rule R170): never zero bytes of padding. -/
def pad (m : List Byte) : List Byte :=
  m ++ List.replicate (padLength m.length) (BitVec.ofNat 8 (padLength m.length))

/-- `strip(m)` (rule R171); `none` is the failure PaddingError: no last byte `n`, `n` outside 1..16, fewer than `n`
bytes, or one of the last `n` bytes differing from `n`. It does not require a multiple of 16 bytes. -/
def strip (m : List Byte) : Option (List Byte) :=
  match m.getLast? with
  | none => none
  | some n =>
    if n.toNat < 1 ∨ 16 < n.toNat then none
    else if m.length < n.toNat then none
    else if (m.drop (m.length - n.toNat)).all (fun b => b == n) then some (m.take (m.length - n.toNat))
    else none

/-- The end of a command whose result is `strip(t)` (rules R173, R183, R186): PaddingError, or the stripped bytes as
output. -/
def stripToOutput (t : List Byte) (s : State) : State :=
  match strip t with
  | none => raise true .paddingError s
  | some r => State.complete (State.putOutput r s)

/-! ### Meanings -/

/-- PAD (rule R172). -/
def execPad (s : State) : Host.Outcome State Fault Refusal :=
  if messageTooLong s then .next (raise true .rangeError s)
  else .next (State.complete (State.putOutput (pad (message s)) s))

/-- STRIP (rule R173). -/
def execStrip (s : State) : Host.Outcome State Fault Refusal :=
  if messageTooLong s then .next (raise true .rangeError s)
  else .next (stripToOutput (message s) s)

end Sys2Proof.Machine
end

