-- ==== Sys2Proof/Machine/Modes.lean ====
section
/-! DEFINITION. Machine/Modes.lean: the mode controller (45_modes.md): the prologue that the six mode commands share, the
block chains of ECB, CBC and CTR, and the meanings of ECBENC, ECBDEC, CBCENC, CBCDEC, CTRXOR and CTREDIT. The chaining
value, the block counter and the padded or unstripped message are command-local and not state (10_state.md rule R48). -/

namespace Sys2Proof.Machine

/-- The six mode commands, as the prologue tells them apart (rule R181). -/
inductive Mode where
  | ecbenc | ecbdec | cbcenc | cbcdec | ctrxor | ctredit
  deriving DecidableEq, Repr

/-- `M in {CBCENC, CBCDEC}`, the commands that check IVLEN. -/
def Mode.usesIv : Mode → Bool
  | .ecbenc => false
  | .ecbdec => false
  | .cbcenc => true
  | .cbcdec => true
  | .ctrxor => false
  | .ctredit => false

/-- `M in {CTRXOR, CTREDIT}`, the commands that check NLEN. -/
def Mode.usesNonce : Mode → Bool
  | .ecbenc => false
  | .ecbdec => false
  | .cbcenc => false
  | .cbcdec => false
  | .ctrxor => true
  | .ctredit => true

/-- The checks of the prologue in their order (rule R181); `ok` when all pass. -/
def modeCheck (M : Mode) (s : State) : Err :=
  if s.KLEN ≠ 16#8 then .invalidKeyLength
  else if M.usesIv ∧ s.IVLEN ≠ 16#8 then .invalidIvOrNonceLength
  else if M.usesNonce ∧ s.NLEN ≠ 8#8 then .invalidIvOrNonceLength
  else if messageTooLong s then .rangeError
  else if M = .ctredit ∧ editOutOfRange s then .rangeError
  else .ok

/-- The prologue (rule R181): raise the first failing check's error, or expand the key, whatever RKV says, and go on. -/
def prologue (M : Mode) (body : State → State) (s : State) : State :=
  if modeCheck M s = .ok then body (State.expandKey s) else raise true (modeCheck M s) s

/-- Every block of a mode command passes through S: after block-cipher invocations with the outputs `outs`, in order, S
holds the last, and is unchanged when there was none (rule R184). -/
def State.ranBlocks (outs : List Block) (s : State) : State := { s with S := outs.getLastD s.S }

/-- ECB/CBC decryption's own length check, `ILEN = 0 or ILEN mod 16 != 0` (rules R183, R186). -/
def raggedMessage (s : State) : Bool := decide (s.ILEN.toNat = 0) || decide (s.ILEN.toNat % 16 ≠ 0)

/-! ### CBC -/

/-- The ciphertext blocks of CBC encryption (rule R185): each plaintext block is XORed with the previous ciphertext
block, the IV before the first, and encrypted. -/
def cbcEncChain (rk : Schedule) : Block → List Block → List Block
  | _, [] => []
  | prev, p :: ps => encblock (xorBytes p prev) rk :: cbcEncChain rk (encblock (xorBytes p prev) rk) ps

/-- The plaintext blocks of CBC decryption (rule R186): each decrypted block is XORed with the previous ciphertext block,
the IV before the first. -/
def cbcDecChain (rk : Schedule) : Block → List Block → List Block
  | _, [] => []
  | prev, c :: cs => xorBytes (decblock c rk) prev :: cbcDecChain rk c cs

/-! ### CTR -/

/-- Byte `k` (0..7) of the counter's 8-byte representation: least significant byte first, or most significant byte first
when CTR_BIG_ENDIAN is true (rules R68, R195). -/
def cntByte (bigEndian : Bool) (v : BitVec 64) (k : Nat) : Byte :=
  v.extractLsb' (8 * (if bigEndian then 7 - k else k)) 8

/-- `ctrblock(i) = NBUF[0..8) || cnt(i mod 2^64)` (rule R195). -/
@[irreducible] def ctrblock (bigEndian : Bool) (nonce : Nonce) (i : Nat) : Block :=
  Vector.ofFn fun j =>
    if j.val < 8 then byteAt nonce j.val else cntByte bigEndian (BitVec.ofNat 64 i) (j.val - 8)

/-- Keystream block `i` for the state's RK and NBUF: the counter block encrypted, never decrypted (rule R196). -/
def keystreamBlock (s : State) (i : Nat) : Block :=
  encblock (ctrblock s.params.CTR_BIG_ENDIAN s.NBUF i) s.RK

/-- `ks(k)`, the keystream byte at byte position `k` (rule R196). -/
def ks (s : State) (k : Nat) : Byte := byteAt (keystreamBlock s (k / 16)) (k % 16)

/-- The bytes of the spliced message (rule R198): `stream` is the keystream from byte position `16 * first` on. -/
def spliceEdit (s : State) (first : Nat) (stream : List Byte) : List Byte :=
  (List.range s.ILEN.toNat).map fun k =>
    if s.XOFF.toNat ≤ k ∧ k < s.XOFF.toNat + s.XLEN.toNat then
      Memory.read s.XBUF (k - s.XOFF.toNat) ^^^ stream.getD (k - 16 * first) 0#8
    else Memory.read s.IBUF k

/-- The indices of the keystream blocks an edit generates: `first..=last`, none when XLEN = 0 (rule R198). -/
def editBlocks (s : State) : List Nat :=
  if s.XLEN.toNat = 0 then []
  else List.range' (s.XOFF.toNat / 16) ((s.XOFF.toNat + s.XLEN.toNat - 1) / 16 - s.XOFF.toNat / 16 + 1)

/-! ### The bodies after the prologue, on the state that holds the expanded key -/

/-- ECBENC after its prologue (rule R182). -/
def ecbencBody (s : State) : State :=
  let outs := (blocksOf (pad (message s))).map (fun p => encblock p s.RK)
  State.complete (State.putOutput (joinBlocks outs) (State.ranBlocks outs s))

/-- ECBDEC after its prologue (rule R183). -/
def ecbdecBody (s : State) : State :=
  if raggedMessage s then raise true .paddingError s
  else
    let outs := (blocksOf (message s)).map (fun c => decblock c s.RK)
    stripToOutput (joinBlocks outs) (State.ranBlocks outs s)

/-- CBCENC after its prologue (rule R185); IVBUF is not written. -/
def cbcencBody (s : State) : State :=
  let outs := cbcEncChain s.RK s.IVBUF (blocksOf (pad (message s)))
  State.complete (State.putOutput (joinBlocks outs) (State.ranBlocks outs s))

/-- CBCDEC after its prologue (rule R186); S ends holding `decblock` of the last ciphertext block, before the XOR. -/
def cbcdecBody (s : State) : State :=
  if raggedMessage s then raise true .paddingError s
  else
    let outs := (blocksOf (message s)).map (fun c => decblock c s.RK)
    stripToOutput (joinBlocks (cbcDecChain s.RK s.IVBUF (blocksOf (message s)))) (State.ranBlocks outs s)

/-- CTRXOR after its prologue (rule R197): the last keystream block is cut to the message's end. -/
def ctrxorBody (s : State) : State :=
  let outs := (List.range ((s.ILEN.toNat + 15) / 16)).map (keystreamBlock s)
  State.complete (State.putOutput (List.zipWith (· ^^^ ·) (message s) (joinBlocks outs)) (State.ranBlocks outs s))

/-- CTREDIT after its prologue (rule R198). -/
def ctreditBody (s : State) : State :=
  let outs := (editBlocks s).map (keystreamBlock s)
  State.complete
    (State.putOutput (spliceEdit s (s.XOFF.toNat / 16) (joinBlocks outs)) (State.ranBlocks outs s))

/-! ### Meanings -/

/-- ECBENC (rule R182). -/
def execEcbenc (s : State) : Host.Outcome State Fault Refusal := .next (prologue .ecbenc ecbencBody s)

/-- ECBDEC (rule R183). -/
def execEcbdec (s : State) : Host.Outcome State Fault Refusal := .next (prologue .ecbdec ecbdecBody s)

/-- CBCENC (rule R185). -/
def execCbcenc (s : State) : Host.Outcome State Fault Refusal := .next (prologue .cbcenc cbcencBody s)

/-- CBCDEC (rule R186). -/
def execCbcdec (s : State) : Host.Outcome State Fault Refusal := .next (prologue .cbcdec cbcdecBody s)

/-- CTRXOR, which is CTRENC and CTRDEC (rules R99, R197). -/
def execCtrxor (s : State) : Host.Outcome State Fault Refusal := .next (prologue .ctrxor ctrxorBody s)

/-- CTREDIT (rule R198). -/
def execCtredit (s : State) : Host.Outcome State Fault Refusal := .next (prologue .ctredit ctreditBody s)

end Sys2Proof.Machine
end

