-- ==== Sys2Proof/Machine/System.lean ====
section
/-! DEFINITION. Machine/System.lean: the meanings of the system commands NOP and CLEAR (46_system.md). -/

namespace Sys2Proof.Machine

/-- NOP (rule R210): its sole effect is to clear ERR. -/
def execNop (s : State) : Host.Outcome State Fault Refusal := .next (State.complete s)

/-- CLEAR (rule R211): every array, buffer and register of rule R20 to zero. -/
def execClear (s : State) : Host.Outcome State Fault Refusal :=
  .next
    { s with
      S := zeros 16, WA := zeros 4, WB := zeros 4
      RK := zeros 176, KEYBUF := zeros 16, IVBUF := zeros 16
      NBUF := zeros 8, IBUF := [], OBUF := [], XBUF := []
      RES := 0, KLEN := 0, IVLEN := 0, NLEN := 0, ILEN := 0, OLEN := 0, XLEN := 0, XOFF := 0
      RKV := false, ERR := .ok }

end Sys2Proof.Machine
end

