-- ==== Sys2Proof/Machine/Dispatch.lean ====
section
/-! DEFINITION. Machine/Dispatch.lean: the engine executes one command: one arm per constructor of Instr, each one direct
call of that command's meaning (30_encoding.md rule R94). -/

namespace Sys2Proof.Machine

/-- Execute one command. -/
def exec (i : Instr) (s : State) : Host.Outcome State Fault Refusal :=
  match i with
  -- 0x0_ system
  | .nop => Sys2Proof.Machine.execNop s
  | .clear => Sys2Proof.Machine.execClear s
  -- 0x1_ field and S-box unit
  | .gfmul a b => Sys2Proof.Machine.execGfmul a b s
  | .sbox a => Sys2Proof.Machine.execSbox a s
  | .isbox a => Sys2Proof.Machine.execIsbox a s
  -- 0x2_ word unit and key-schedule expander
  | .wxor => Sys2Proof.Machine.execWxor s
  | .rotword => Sys2Proof.Machine.execRotword s
  | .subword => Sys2Proof.Machine.execSubword s
  | .rcon a => Sys2Proof.Machine.execRcon a s
  | .keyexpand => Sys2Proof.Machine.execKeyexpand s
  -- 0x3_ state-array round primitives
  | .addroundkey a => Sys2Proof.Machine.execAddroundkey a s
  | .subbytes => Sys2Proof.Machine.execSubbytes s
  | .invsubbytes => Sys2Proof.Machine.execInvsubbytes s
  | .shiftrows => Sys2Proof.Machine.execShiftrows s
  | .invshiftrows => Sys2Proof.Machine.execInvshiftrows s
  | .mixcolumns => Sys2Proof.Machine.execMixcolumns s
  | .invmixcolumns => Sys2Proof.Machine.execInvmixcolumns s
  -- 0x4_ block cipher sequencer
  | .encblock => Sys2Proof.Machine.execEncblock s
  | .decblock => Sys2Proof.Machine.execDecblock s
  -- 0x5_ padding unit
  | .pad => Sys2Proof.Machine.execPad s
  | .strip => Sys2Proof.Machine.execStrip s
  -- 0x6_ mode controller
  | .ecbenc => Sys2Proof.Machine.execEcbenc s
  | .ecbdec => Sys2Proof.Machine.execEcbdec s
  | .cbcenc => Sys2Proof.Machine.execCbcenc s
  | .cbcdec => Sys2Proof.Machine.execCbcdec s
  | .ctrxor => Sys2Proof.Machine.execCtrxor s
  | .ctredit => Sys2Proof.Machine.execCtredit s

end Sys2Proof.Machine
end

