-- ==== Sys2Proof/Machine/Bus.lean ====
section
/-! DEFINITION. Machine/Bus.lean: how the engine serves what reaches it from outside: a command word written to CMD, a
register or byte access, an access it does not admit, a reset (20_memory.md rules R61 to R66, R73; 70_reset_and_hazards.md
rules R260, R263). A command runs to completion before the write completes (00_scope.md rule R7), so each access is one
step, and no answer can be seen before the command's effect. -/

namespace Sys2Proof.Machine

/-- The engine decodes and executes the word written to CMD (rules R90, R95, R96). -/
def command (w : Word32) (s : State) : Host.Outcome State Fault Refusal :=
  match decode w with
  | .ok i => exec i s
  | .error _ => .next (raiseIllegal s)

/-- An access that the engine does not admit leaves every piece of engine state unchanged; what the host observes is
BUS_FAULT_RESPONSE (rule R66). `seen` is the answer when that is zero data. -/
def notAdmitted (seen : Reply) (s : State) : Host.Outcome State Fault Refusal :=
  match s.params.BUS_FAULT_RESPONSE with
  | .refuse => .refused .accessNotAdmitted
  | .busError => .next (State.reply .busError s)
  | .zeroData => .next (State.reply seen s)
  | .hang => .fault .busHang

/-- `MemRead(addr, n)` (rules R62, R63, R65): no read changes the engine. -/
def serveRead (addr n : Nat) (s : State) : Host.Outcome State Fault Refusal :=
  match admitted s.params addr n with
  | some (.reg r) => .next (State.reply (.word (s.readReg r)) s)
  | some (.byte A i) => .next (State.reply (.byte (s.readByte A i)) s)
  | none => notAdmitted .zeroData s

/-- `MemWrite(addr, n, v)` (rules R62, R63, R65): a write to CMD runs a command, a byte write stores `v[7:0]`. -/
def serveWrite (addr n : Nat) (v : Word32) (s : State) : Host.Outcome State Fault Refusal :=
  match admitted s.params addr n with
  | some (.reg .CMD) => command v (State.reply .done s)
  | some (.reg r) => .next (State.reply .done (s.writeReg r v))
  | some (.byte A i) => .next (State.reply .done (s.writeByte A i (v.setWidth 8)))
  | none => notAdmitted .done s

/-- One event from outside. A reset leaves the reset state whatever command it cut off (rule R263); the host gets no answer
(log entry 9). -/
def serve (ev : BusEvent) (s : State) : Host.Outcome State Fault Refusal :=
  match ev with
  | .read addr n => serveRead addr n s
  | .write addr n v => serveWrite addr n v s
  | .reset => .next (State.engineReset s)
  | .resetDuring _ => .next (State.engineReset s)

/-- The bus write that gives the engine the command word `w` (rules R70, R90). -/
def cmdWrite (p : Params) (w : Word32) : BusEvent := .write (p.BASE + Reg.CMD.offset) 4 w

end Sys2Proof.Machine
end

