-- ==== Sys2Proof/Machine/Step.lean ====
section
/-! DEFINITION. Machine/Step.lean: one step of the machine serves the next access or reset on the bus. "The engine never
acts on its own" (00_scope.md rule R7). There is no program counter and no fetch (10_state.md rule R24): a program is
the host's sequence of accesses, `State.pending` (log entry 4). -/

namespace Sys2Proof.Machine

/-- One step: serve the next event in bus order (rule R73); with none waiting the engine is idle and nothing changes
(rule R262). -/
def step (s : State) : Host.Outcome State Fault Refusal :=
  match s.pending with
  | [] => .next s
  | ev :: rest => serve ev { s with pending := rest }

/-- `s` with a write of the command word `w` to CMD as the next access on the bus, so that the next step runs exactly
that command. The bits of `w` above `nbits` are zero. -/
def State.withFetchWord (s : State) (nbits w : Nat) : State :=
  { s with pending := cmdWrite s.params (BitVec.ofNat 32 (w % 2 ^ nbits)) :: s.pending }

end Sys2Proof.Machine
end

