-- ==== Sys2Proof/Machine/Script.lean ====
section
/-! DEFINITION. Machine/Script.lean: the host-script notation of 30_encoding.md rules R98 and R99: bus statements,
command statements and pseudo-instructions as the bus accesses they stand for. The text syntax itself is not part of
the hardware (92_eei_decisions.md D24). -/

namespace Sys2Proof.Machine

/-- `WR32 reg, value`. -/
def wr32 (p : Params) (r : Reg) (v : Word32) : BusEvent := .write (p.BASE + r.offset) 4 v

/-- `RD32 reg`. -/
def rd32 (p : Params) (r : Reg) : BusEvent := .read (p.BASE + r.offset) 4

/-- `WR8 A[i], value`. -/
def wr8 (p : Params) (A : Arr) (i : Nat) (b : Byte) : BusEvent := .write (p.BASE + A.offset + i) 1 (zext32 b)

/-- `RD8 A[i]`. -/
def rd8 (p : Params) (A : Arr) (i : Nat) : BusEvent := .read (p.BASE + A.offset + i) 1

/-- A command statement: `WR32 CMD, w` with the command's word. -/
def cmd (p : Params) (i : Instr) : BusEvent := wr32 p .CMD (encode i)

/-- `XTIME a` is `GFMUL a, 2`. -/
def xtimeCmd (p : Params) (a : Byte) : BusEvent := cmd p (.gfmul a 2)

/-- `CTRENC` is `CTRXOR`. -/
def ctrencCmd (p : Params) : BusEvent := cmd p .ctrxor

/-- `CTRDEC` is `CTRXOR`, the same word as `CTRENC`. -/
def ctrdecCmd (p : Params) : BusEvent := cmd p .ctrxor

/-- The byte writes `WR8 A[k], h0`, `WR8 A[k+1], h1`, … -/
def loadFrom (p : Params) (A : Arr) : Nat → List Byte → List BusEvent
  | _, [] => []
  | k, b :: bs => wr8 p A k b :: loadFrom p A (k + 1) bs

/-- `LOAD A, h`. -/
def load (p : Params) (A : Arr) (h : List Byte) : List BusEvent := loadFrom p A 0 h

/-- `LOADKEY h`: the first min(n, 16) bytes are stored, the length n is declared. -/
def loadKey (p : Params) (h : List Byte) : List BusEvent :=
  load p .KEYBUF (h.take 16) ++ [wr32 p .KLEN (BitVec.ofNat 32 h.length)]

/-- `LOADIV h`. -/
def loadIv (p : Params) (h : List Byte) : List BusEvent :=
  load p .IVBUF (h.take 16) ++ [wr32 p .IVLEN (BitVec.ofNat 32 h.length)]

/-- `LOADNONCE h`. -/
def loadNonce (p : Params) (h : List Byte) : List BusEvent :=
  load p .NBUF (h.take 8) ++ [wr32 p .NLEN (BitVec.ofNat 32 h.length)]

/-- `LOADMSG h`. -/
def loadMsg (p : Params) (h : List Byte) : List BusEvent :=
  load p .IBUF h ++ [wr32 p .ILEN (BitVec.ofNat 32 h.length)]

/-- `LOADNEW off, h`. -/
def loadNew (p : Params) (off : Nat) (h : List Byte) : List BusEvent :=
  load p .XBUF h ++ [wr32 p .XLEN (BitVec.ofNat 32 h.length), wr32 p .XOFF (BitVec.ofNat 32 off)]

/-- `LOADSTATE h`, 16 bytes. -/
def loadState (p : Params) (h : Block) : List BusEvent := load p .S h.toList

end Sys2Proof.Machine
end

