-- ==== Sys2Proof/Safety.lean ====
section
/-! DEFINITION. Safety.lean: the terms the statements use: the invariant of the engine, the opcode table as rule R94
prints it, what a served access leaves, blocks of a buffer, and what valid padding is. -/

namespace Sys2Proof.Machine

/-! ### The invariant -/

/-- What holds of every state the machine reaches from a state of the same kind. -/
structure State.Inv (s : State) : Prop where
  /-- MSG_CAP is a value rule R6 admits. -/
  paramsLegal : s.params.Legal
  /-- The buffers are in canonical form, so that equal contents are equal data. -/
  ibufCanonical : Memory.Canonical s.IBUF
  obufCanonical : Memory.Canonical s.OBUF
  xbufCanonical : Memory.Canonical s.XBUF
  /-- No buffer holds a byte outside its size (rules R20, R72). -/
  ibufWithin : Memory.Within s.IBUF s.params.MSG_CAP
  obufWithin : Memory.Within s.OBUF (s.params.MSG_CAP + 16)
  xbufWithin : Memory.Within s.XBUF s.params.MSG_CAP
  /-- "whenever RKV = 1, KLEN[7:0] = 16 and RK = expand(KEYBUF[0..16))" (rule R28). -/
  keyValid : s.RKV = true → s.KLEN = 16#8 ∧ s.RK = expand s.KEYBUF
  /-- The valid part of OBUF lies in OBUF (rule R32). -/
  olenBounded : s.OLEN.toNat ≤ s.params.MSG_CAP + 16

/-! ### The opcode table as rule R94 prints it -/

/-- A row of rule R94: a word `w` selects it "when `w and mask = match` and the operand constraint holds". -/
structure SpecRow where
  pattern : Word32
  mask : Word32
  constraint : Byte → Bool
  command : Byte → Byte → Instr

/-- Rows 0x00 to 0x24 of rule R94. -/
def specRowsLow : List SpecRow :=
  [⟨0x00000000#32, 0xFFFFFFFF#32, fun _ => true, fun _ _ => .nop⟩,
   ⟨0x00000001#32, 0xFFFFFFFF#32, fun _ => true, fun _ _ => .clear⟩,
   ⟨0x00000010#32, 0xFF0000FF#32, fun _ => true, fun a b => .gfmul a b⟩,
   ⟨0x00000011#32, 0xFFFF00FF#32, fun _ => true, fun a _ => .sbox a⟩,
   ⟨0x00000012#32, 0xFFFF00FF#32, fun _ => true, fun a _ => .isbox a⟩,
   ⟨0x00000020#32, 0xFFFFFFFF#32, fun _ => true, fun _ _ => .wxor⟩,
   ⟨0x00000021#32, 0xFFFFFFFF#32, fun _ => true, fun _ _ => .rotword⟩,
   ⟨0x00000022#32, 0xFFFFFFFF#32, fun _ => true, fun _ _ => .subword⟩,
   ⟨0x00000023#32, 0xFFFF00FF#32, fun a => decide (1 ≤ a.toNat) && decide (a.toNat ≤ 10), fun a _ => .rcon a⟩,
   ⟨0x00000024#32, 0xFFFFFFFF#32, fun _ => true, fun _ _ => .keyexpand⟩]

/-- Rows 0x30 to 0x65 of rule R94. -/
def specRowsHigh : List SpecRow :=
  [⟨0x00000030#32, 0xFFFF00FF#32, fun a => decide (a.toNat ≤ 10), fun a _ => .addroundkey a⟩,
   ⟨0x00000031#32, 0xFFFFFFFF#32, fun _ => true, fun _ _ => .subbytes⟩,
   ⟨0x00000032#32, 0xFFFFFFFF#32, fun _ => true, fun _ _ => .invsubbytes⟩,
   ⟨0x00000033#32, 0xFFFFFFFF#32, fun _ => true, fun _ _ => .shiftrows⟩,
   ⟨0x00000034#32, 0xFFFFFFFF#32, fun _ => true, fun _ _ => .invshiftrows⟩,
   ⟨0x00000035#32, 0xFFFFFFFF#32, fun _ => true, fun _ _ => .mixcolumns⟩,
   ⟨0x00000036#32, 0xFFFFFFFF#32, fun _ => true, fun _ _ => .invmixcolumns⟩,
   ⟨0x00000040#32, 0xFFFFFFFF#32, fun _ => true, fun _ _ => .encblock⟩,
   ⟨0x00000041#32, 0xFFFFFFFF#32, fun _ => true, fun _ _ => .decblock⟩,
   ⟨0x00000050#32, 0xFFFFFFFF#32, fun _ => true, fun _ _ => .pad⟩,
   ⟨0x00000051#32, 0xFFFFFFFF#32, fun _ => true, fun _ _ => .strip⟩,
   ⟨0x00000060#32, 0xFFFFFFFF#32, fun _ => true, fun _ _ => .ecbenc⟩,
   ⟨0x00000061#32, 0xFFFFFFFF#32, fun _ => true, fun _ _ => .ecbdec⟩,
   ⟨0x00000062#32, 0xFFFFFFFF#32, fun _ => true, fun _ _ => .cbcenc⟩,
   ⟨0x00000063#32, 0xFFFFFFFF#32, fun _ => true, fun _ _ => .cbcdec⟩,
   ⟨0x00000064#32, 0xFFFFFFFF#32, fun _ => true, fun _ _ => .ctrxor⟩,
   ⟨0x00000065#32, 0xFFFFFFFF#32, fun _ => true, fun _ _ => .ctredit⟩]

/-- The 27 rows of rule R94. -/
def specTable : List SpecRow := specRowsLow ++ specRowsHigh

/-- `w` is the command word of `i`: it decodes to `i`, and `i` encodes to it. -/
def Encodes (w : Word32) (i : Instr) : Prop := decode w = .ok i ∧ encode i = w

/-! ### The bus -/

/-- The state after the access at the head of the bus was served and the host received `r`, nothing else changed. -/
def served (s : State) (rest : List BusEvent) (r : Reply) : State :=
  { s with pending := rest, replies := r :: s.replies }

/-- No register stands at `addr` for a 32-bit access and no array byte for a byte access (rules R62, R63, R70). -/
def Unmapped (p : Params) (addr n : Nat) : Prop :=
  (n = 4 → ∀ off ∈ [0x00, 0x04, 0x08, 0x0C, 0x10, 0x14, 0x18, 0x1C, 0x20, 0x24], addr ≠ p.BASE + off) ∧
  (n = 1 → ∀ r ∈ [(0x40, 16), (0x50, 4), (0x54, 4), (0x60, 16), (0x70, 16), (0x80, 8), (0x100, 176),
      (0x10000, p.MSG_CAP), (0x20000, p.MSG_CAP + 16), (0x30000, p.MSG_CAP)],
    ¬(p.BASE + r.1 ≤ addr ∧ addr < p.BASE + r.1 + r.2))

/-- The same event for a window that begins `d` bytes higher. -/
def BusEvent.relocate (d : Nat) : BusEvent → BusEvent
  | .read addr n => .read (addr + d) n
  | .write addr n v => .write (addr + d) n v
  | .reset => .reset
  | .resetDuring w => .resetDuring w

/-- The same machine with BASE `d` bytes higher, the host's accesses moved with it. -/
def State.relocate (d : Nat) (s : State) : State :=
  { s with
    params := { s.params with BASE := s.params.BASE + d }
    pending := s.pending.map (BusEvent.relocate d) }

/-! ### Commands in sequence -/

/-- The state after a list of commands, if each answers a next state. -/
def runCommands : List Instr → State → Option State
  | [], s => some s
  | i :: is, s =>
    match exec i s with
    | .next t => runCommands is t
    | .fault _ => none
    | .refused _ => none

/-- The 40 commands of 95_test_vectors.md program P1 that encrypt a block by hand. -/
def handEncryption : List Instr :=
  .addroundkey 0 ::
    ([1, 2, 3, 4, 5, 6, 7, 8, 9].flatMap fun r => [.subbytes, .shiftrows, .mixcolumns, .addroundkey r]) ++
    [.subbytes, .shiftrows, .addroundkey 10]

/-! ### Messages -/

/-- Block `i` of a buffer. -/
@[irreducible] def blockIn (m : Memory) (i : Nat) : Block := Vector.ofFn fun j => Memory.read m (16 * i + j.val)

/-- Block `i` of `pad(IBUF[0..ILEN))` (rule R170). -/
@[irreducible] def paddedBlock (s : State) (i : Nat) : Block :=
  Vector.ofFn fun j =>
    if 16 * i + j.val < s.ILEN.toNat then Memory.read s.IBUF (16 * i + j.val)
    else BitVec.ofNat 8 (16 - s.ILEN.toNat % 16)

/-- The padding of the `len` bytes `f 0`, `f 1`, … is valid (rule R171): the last byte is `n` with 1 <= n <= 16, there are
`n` bytes, and each of the last `n` is `n`. -/
def ValidPadding (f : Nat → Byte) (len : Nat) : Prop :=
  0 < len ∧ 1 ≤ (f (len - 1)).toNat ∧ (f (len - 1)).toNat ≤ 16 ∧ (f (len - 1)).toNat ≤ len ∧
    ∀ j, len - (f (len - 1)).toNat ≤ j → j < len → f j = f (len - 1)

/-- What `strip` of the `ILEN` bytes `f` leads to, a command having left `s` (rules R173, R183, R186): with invalid padding
PaddingError; with valid padding the bytes before the padding, from OBUF[0] on. Nothing else changes. -/
def StripOutcome (f : Nat → Byte) (s : State) (o : Host.Outcome State Fault Refusal) : Prop :=
  (¬ValidPadding f s.ILEN.toNat → o = .next { s with ERR := .paddingError, OLEN := 0 }) ∧
  (ValidPadding f s.ILEN.toNat →
    ∃ t, o = .next t ∧ t.OLEN.toNat = s.ILEN.toNat - (f (s.ILEN.toNat - 1)).toNat ∧
      (∀ k < t.OLEN.toNat, Memory.read t.OBUF k = f k) ∧
      (∀ k, t.OLEN.toNat ≤ k → Memory.read t.OBUF k = Memory.read s.OBUF k) ∧
      t = { s with OBUF := t.OBUF, OLEN := t.OLEN, ERR := .ok })

/-- The state a mode command works on after its prologue: RK = expand(KEYBUF), RKV = 1 (rule R181). -/
def keyed (s : State) : State := { s with RK := expand s.KEYBUF, RKV := true }

/-- The effects of an error of a command that produces output (rule R224): the code, and OLEN = 0. -/
def failedWith (e : Err) (s : State) : State := { s with ERR := e, OLEN := 0 }

/-- `u` holds in its input buffer the output that `t` holds, with the key and parameters of `t`: what a host that copies
OBUF to IBUF makes of `t` (70_reset_and_hazards.md rule R275). -/
structure CopiedBack (t u : State) : Prop where
  inv : u.Inv
  params : u.params = t.params
  key : u.KEYBUF = t.KEYBUF
  klen : u.KLEN = t.KLEN
  iv : u.IVBUF = t.IVBUF
  ivlen : u.IVLEN = t.IVLEN
  nonce : u.NBUF = t.NBUF
  nlen : u.NLEN = t.NLEN
  length : u.ILEN = t.OLEN
  bytes : ∀ k < t.OLEN.toNat, Memory.read u.IBUF k = Memory.read t.OBUF k

/-- The inputs of the mode commands (rule R180): the parameters, KEYBUF, KLEN, the IV or nonce and its length, the message
`IBUF[0..ILEN)`, and for CTREDIT `XBUF[0..XLEN)`, XLEN and XOFF. -/
structure SameInputs (s s' : State) : Prop where
  params : s.params = s'.params
  key : s.KEYBUF = s'.KEYBUF
  klen : s.KLEN = s'.KLEN
  iv : s.IVBUF = s'.IVBUF
  ivlen : s.IVLEN = s'.IVLEN
  nonce : s.NBUF = s'.NBUF
  nlen : s.NLEN = s'.NLEN
  ilen : s.ILEN = s'.ILEN
  xlen : s.XLEN = s'.XLEN
  xoff : s.XOFF = s'.XOFF
  message : ∀ k < s.ILEN.toNat, Memory.read s.IBUF k = Memory.read s'.IBUF k
  newBytes : ∀ k < s.XLEN.toNat, Memory.read s.XBUF k = Memory.read s'.XBUF k

end Sys2Proof.Machine
end

