-- ==== Sys2Proof/Certificates/Slice0/Obligations.lean ====
section
/-! DEFINITION. Certificates/Slice0/Obligations.lean: the statements about the engine, from the numbered rules of spec/.
Each docstring names the rules the statement formalises. Words, offsets, codes, matrices and constants are written here
as the rules print them. `next` always means `Host.Outcome.next`. -/

open Sys2Proof Sys2Proof.Machine

/-! ### Encoding and decoding (30_encoding.md) -/

/-- Decoding the encoding of a well-formed command gives it back, every operand at every value (rules R90 to R95). -/
def Obligations.DecodeOfEncode : Prop :=
  ∀ i : Instr, i.wf = true → decode (encode i) = .ok i

/-- Every legal word is the encoding of the one well-formed command it decodes to (rules R94, R95). -/
def Obligations.EncodeOfDecode : Prop :=
  ∀ (w : Word32) (i : Instr), decode w = .ok i → i.wf = true ∧ encode i = w

/-- The decoder is the table of rule R94: a word decodes to a command exactly when it selects a row by `w and mask = match`
and the row's operand constraint holds, and the command is the row's with `a = w[15:8]`, `b = w[23:16]` (rules R92, R94,
R95). -/
def Obligations.DecodeFollowsOpcodeTable : Prop :=
  ∀ (w : Word32) (i : Instr), decode w = .ok i ↔
    ∃ row ∈ specTable, w &&& row.mask = row.pattern ∧ row.constraint (w.extractLsb' 8 8) = true ∧
      i = row.command (w.extractLsb' 8 8) (w.extractLsb' 16 8)

/-- Words of 95_test_vectors.md D-ENC and of the rules' worked examples decode as they say. -/
def Obligations.SampleWordsDecode : Prop :=
  decode 0x00135710#32 = .ok (.gfmul 0x57 0x13) ∧ decode 0x00005311#32 = .ok (.sbox 0x53) ∧
  decode 0x00000923#32 = .ok (.rcon 9) ∧ decode 0x00000024#32 = .ok .keyexpand ∧
  decode 0x00000A30#32 = .ok (.addroundkey 10) ∧ decode 0x00000035#32 = .ok .mixcolumns ∧
  decode 0x00000041#32 = .ok .decblock ∧ decode 0x00000051#32 = .ok .strip ∧
  decode 0x00000064#32 = .ok .ctrxor ∧ decode 0x00000001#32 = .ok .clear ∧
  decode 0x00000002#32 = .error .unknownOpcode ∧ decode 0x00000100#32 = .error .operandFieldNonzero ∧
  decode 0x01000000#32 = .error .zFieldNonzero ∧ decode 0x00000B30#32 = .error .operandOutOfRange

/-- An illegal encoding written to CMD: "STATUS.ERR <- 4 and nothing else changes, not even OLEN" (rules R96, R230). The
illegal words are those rule R96 lists: a nonzero Z field, an opcode byte not in rule R94, a nonzero must-be-zero operand
field, RCON outside 1..10, ADDROUNDKEY above 10. -/
def Obligations.IllegalWordRaisesIllegalCommand : Prop :=
  ∀ (s : State) (rest : List BusEvent) (w : Word32),
    (w.extractLsb' 24 8 ≠ 0#8 ∨
      w.extractLsb' 0 8 ∉ [0x00#8, 0x01#8, 0x10#8, 0x11#8, 0x12#8, 0x20#8, 0x21#8, 0x22#8, 0x23#8, 0x24#8,
        0x30#8, 0x31#8, 0x32#8, 0x33#8, 0x34#8, 0x35#8, 0x36#8, 0x40#8, 0x41#8, 0x50#8, 0x51#8,
        0x60#8, 0x61#8, 0x62#8, 0x63#8, 0x64#8, 0x65#8] ∨
      (w.extractLsb' 8 8 ≠ 0#8 ∧ w.extractLsb' 0 8 ∉ [0x10#8, 0x11#8, 0x12#8, 0x23#8, 0x30#8]) ∨
      (w.extractLsb' 16 8 ≠ 0#8 ∧ w.extractLsb' 0 8 ≠ 0x10#8) ∨
      (w.extractLsb' 0 8 = 0x23#8 ∧ ((w.extractLsb' 8 8).toNat = 0 ∨ 11 ≤ (w.extractLsb' 8 8).toNat)) ∨
      (w.extractLsb' 0 8 = 0x30#8 ∧ 11 ≤ (w.extractLsb' 8 8).toNat)) →
    step { s with pending := .write s.params.BASE 4 w :: rest } =
      .next { served s rest .done with ERR := .illegalCommand }

/-! ### Steps and the bus (00_scope.md rule R7, 20_memory.md, 70_reset_and_hazards.md) -/

/-- A write of a legal word to CMD runs exactly the decoded command, the access gone from the bus and its completion
reported; the engine executes nothing else around it (rules R7, R62, R90). With nothing on the bus a step changes nothing:
"the engine never acts on its own", and is idle after reset (rules R7, R262). -/
def Obligations.StepRunsDecodedCommand : Prop :=
  (∀ (s : State) (rest : List BusEvent) (w : Word32) (i : Instr), decode w = .ok i →
    step { s with pending := .write s.params.BASE 4 w :: rest } = exec i (served s rest .done)) ∧
  ∀ s : State, s.pending = [] → step s = .next s

/-- A 32-bit read at each of the ten register offsets returns the register's value, unimplemented bits 0, CMD 0, and
changes nothing (rules R34, R62, R65, R70). -/
def Obligations.RegisterReadsReturnTheirValue : Prop :=
  ∀ (s : State) (rest : List BusEvent) (off : Nat) (v : Word32),
    (off, v) ∈ [(0x00, 0#32), (0x04, s.statusWord), (0x08, s.RES.setWidth 32), (0x0C, s.KLEN.setWidth 32),
      (0x10, s.IVLEN.setWidth 32), (0x14, s.NLEN.setWidth 32), (0x18, s.ILEN), (0x1C, s.OLEN), (0x20, s.XLEN),
      (0x24, s.XOFF)] →
    step { s with pending := .read (s.params.BASE + off) 4 :: rest } = .next (served s rest (.word v))

/-- STATUS: ERR in bits 3:0 with the codes 0 to 6, RKV in bit 8, every other bit 0 (rules R25, R221). -/
def Obligations.StatusWordLayout : Prop :=
  ∀ s : State,
    (s.ERR, s.statusWord.extractLsb' 0 4) ∈ [(Err.ok, 0#4), (.invalidKeyLength, 1#4), (.invalidIvOrNonceLength, 2#4),
      (.paddingError, 3#4), (.illegalCommand, 4#4), (.noKey, 5#4), (.rangeError, 6#4)] ∧
    s.statusWord.getLsbD 8 = s.RKV ∧
    (∀ i, 4 ≤ i → i ≠ 8 → s.statusWord.getLsbD i = false)

/-- A byte read at each byte of each array returns `A[i]` and changes nothing (rules R63, R65, R67, R70). -/
def Obligations.ByteReadsReturnTheirByte : Prop :=
  ∀ (s : State) (rest : List BusEvent) (i : Nat), s.params.Legal →
    let reads (off : Nat) (b : Byte) : Prop :=
      step { s with pending := .read (s.params.BASE + off + i) 1 :: rest } = .next (served s rest (.byte b))
    (i < 16 → reads 0x40 (byteAt s.S i)) ∧ (i < 4 → reads 0x50 (byteAt s.WA i)) ∧
    (i < 4 → reads 0x54 (byteAt s.WB i)) ∧ (i < 16 → reads 0x60 (byteAt s.KEYBUF i)) ∧
    (i < 16 → reads 0x70 (byteAt s.IVBUF i)) ∧ (i < 8 → reads 0x80 (byteAt s.NBUF i)) ∧
    (i < 176 → reads 0x100 (byteAt s.RK i)) ∧ (i < s.params.MSG_CAP → reads 0x10000 (Memory.read s.IBUF i)) ∧
    (i < s.params.MSG_CAP + 16 → reads 0x20000 (Memory.read s.OBUF i)) ∧
    (i < s.params.MSG_CAP → reads 0x30000 (Memory.read s.XBUF i))

/-- A 32-bit write to each register but CMD: KLEN, IVLEN, NLEN store `v[7:0]`, a write to KLEN clears RKV whatever the
value, ILEN, XLEN, XOFF store `v`, and STATUS, RES, OLEN ignore it (rules R28, R29, R62, R65). -/
def Obligations.RegisterWritesStoreTheirBits : Prop :=
  ∀ (s : State) (rest : List BusEvent) (v : Word32),
    let writes (off : Nat) (t : State) : Prop :=
      step { s with pending := .write (s.params.BASE + off) 4 v :: rest } = .next t
    writes 0x04 (served s rest .done) ∧ writes 0x08 (served s rest .done) ∧
    writes 0x0C { served s rest .done with KLEN := v.extractLsb' 0 8, RKV := false } ∧
    writes 0x10 { served s rest .done with IVLEN := v.extractLsb' 0 8 } ∧
    writes 0x14 { served s rest .done with NLEN := v.extractLsb' 0 8 } ∧
    writes 0x18 { served s rest .done with ILEN := v } ∧ writes 0x1C (served s rest .done) ∧
    writes 0x20 { served s rest .done with XLEN := v } ∧ writes 0x24 { served s rest .done with XOFF := v }

/-- A byte write to the small arrays stores `v[7:0]` in `A[i]` and leaves every other byte; a write to any byte of KEYBUF
also clears RKV; a write to RK changes nothing (rules R28, R63, R65). -/
def Obligations.ByteWritesToSmallArrays : Prop :=
  ∀ (s : State) (rest : List BusEvent) (i : Nat) (v : Word32),
    let writes (off : Nat) (t : State) : Prop :=
      step { s with pending := .write (s.params.BASE + off + i) 1 v :: rest } = .next t
    (i < 16 → ∃ A, (∀ k < 16, byteAt A k = if k = i then v.extractLsb' 0 8 else byteAt s.S k) ∧
      writes 0x40 { served s rest .done with S := A }) ∧
    (i < 4 → ∃ A, (∀ k < 4, byteAt A k = if k = i then v.extractLsb' 0 8 else byteAt s.WA k) ∧
      writes 0x50 { served s rest .done with WA := A }) ∧
    (i < 4 → ∃ A, (∀ k < 4, byteAt A k = if k = i then v.extractLsb' 0 8 else byteAt s.WB k) ∧
      writes 0x54 { served s rest .done with WB := A }) ∧
    (i < 16 → ∃ A, (∀ k < 16, byteAt A k = if k = i then v.extractLsb' 0 8 else byteAt s.KEYBUF k) ∧
      writes 0x60 { served s rest .done with KEYBUF := A, RKV := false }) ∧
    (i < 16 → ∃ A, (∀ k < 16, byteAt A k = if k = i then v.extractLsb' 0 8 else byteAt s.IVBUF k) ∧
      writes 0x70 { served s rest .done with IVBUF := A }) ∧
    (i < 8 → ∃ A, (∀ k < 8, byteAt A k = if k = i then v.extractLsb' 0 8 else byteAt s.NBUF k) ∧
      writes 0x80 { served s rest .done with NBUF := A }) ∧
    (i < 176 → writes 0x100 (served s rest .done))

/-- A byte write to IBUF or XBUF stores `v[7:0]` at its index and leaves every other byte; a write to OBUF changes nothing
(rules R31, R32, R33, R63, R65). -/
def Obligations.ByteWritesToBuffers : Prop :=
  ∀ (s : State) (rest : List BusEvent) (i : Nat) (v : Word32), s.Inv →
    let writes (off : Nat) (t : State) : Prop :=
      step { s with pending := .write (s.params.BASE + off + i) 1 v :: rest } = .next t
    (i < s.params.MSG_CAP →
      ∃ m, (∀ k, Memory.read m k = if k = i then v.extractLsb' 0 8 else Memory.read s.IBUF k) ∧
        writes 0x10000 { served s rest .done with IBUF := m }) ∧
    (i < s.params.MSG_CAP →
      ∃ m, (∀ k, Memory.read m k = if k = i then v.extractLsb' 0 8 else Memory.read s.XBUF k) ∧
        writes 0x30000 { served s rest .done with XBUF := m }) ∧
    (i < s.params.MSG_CAP + 16 → writes 0x20000 (served s rest .done))

/-- An access that is not admitted leaves every piece of engine state unchanged; what the host observes is the parameter
BUS_FAULT_RESPONSE, which a model treats as refused unless the platform says otherwise (rules R64, R66). How the answers
are represented is the model's choice (log entry 5). -/
def Obligations.UnadmittedAccessLeavesEngine : Prop :=
  ∀ (s : State) (rest : List BusEvent) (addr n : Nat) (v : Word32), Unmapped s.params addr n →
    let reads := step { s with pending := .read addr n :: rest }
    let writes := step { s with pending := .write addr n v :: rest }
    (s.params.BUS_FAULT_RESPONSE = .refuse →
      reads = .refused .accessNotAdmitted ∧ writes = .refused .accessNotAdmitted) ∧
    (s.params.BUS_FAULT_RESPONSE = .busError →
      reads = .next (served s rest .busError) ∧ writes = .next (served s rest .busError)) ∧
    (s.params.BUS_FAULT_RESPONSE = .zeroData →
      reads = .next (served s rest .zeroData) ∧ writes = .next (served s rest .done)) ∧
    (s.params.BUS_FAULT_RESPONSE = .hang → reads = .fault .busHang ∧ writes = .fault .busHang)

/-- "Reads never have side effects": whatever a read answers, only the bus changes (rule R65). -/
def Obligations.ReadsHaveNoSideEffects : Prop :=
  ∀ (s t : State) (rest : List BusEvent) (addr n : Nat),
    step { s with pending := .read addr n :: rest } = .next t → ∃ r, t = served s rest r

/-- A reset, also one that arrives while a command is executing, leaves the reset state with no trace of the command
(rules R260, R263). In the reset state "every byte ... is 0x00 and every register ... is 0" (rules R50, R261), for every
value of the parameters. That the parameters, the accesses still to come and the replies stay, and that neither a reset nor
the CMD write it cuts off gets an answer, is the model's choice (log entry 9, DESIGN CHOICE), no rule of the spec. -/
def Obligations.ResetLeavesResetState : Prop :=
  (∀ (s : State) (rest : List BusEvent) (w : Word32),
    step { s with pending := .reset :: rest } =
      .next { State.resetWith s.params with pending := rest, replies := s.replies } ∧
    step { s with pending := .resetDuring w :: rest } =
      .next { State.resetWith s.params with pending := rest, replies := s.replies }) ∧
  ∀ p : Params, (∀ (A : Arr) (i : Nat), (State.resetWith p).readByte A i = 0#8) ∧
    (∀ r : Reg, (State.resetWith p).readReg r = 0#32) ∧ (State.resetWith p).ERR = .ok ∧ (State.resetWith p).RKV = false

/-- No rule depends on the value of BASE: the same accesses to a window that begins `d` bytes higher have the same effects
and answers (rules R6, R60, R70). -/
def Obligations.BaseAddressIsImmaterial : Prop :=
  ∀ (s : State) (d : Nat),
    (∀ t, step s = .next t → step (s.relocate d) = .next (t.relocate d)) ∧
    (∀ r, step s = .fault r → step (s.relocate d) = .fault r) ∧
    (∀ r, step s = .refused r → step (s.relocate d) = .refused r)

/-! ### System commands (46_system.md) -/

/-- NOP writes STATUS.ERR <- 0 and nothing else (rule R210). -/
def Obligations.NopClearsErr : Prop :=
  Encodes 0x00000000#32 .nop ∧ ∀ s : State, exec .nop s = .next { s with ERR := .ok }

/-- CLEAR puts every piece of state into its reset value (rule R211). -/
def Obligations.ClearGivesResetState : Prop :=
  Encodes 0x00000001#32 .clear ∧
  ∀ s : State, exec .clear s = .next { State.resetWith s.params with pending := s.pending, replies := s.replies }

/-! ### Field and S-box unit (40_field_sbox.md) -/

/-- GFMUL a, b: RES <- the product, for every pair of operands; nothing else but STATUS.ERR changes (rule R111). -/
def Obligations.GfmulWritesProduct : Prop :=
  (∀ a b : Byte, Encodes (0#8 ++ b ++ a ++ 0x10#8) (.gfmul a b)) ∧
  (∀ (a b : Byte) (s : State), exec (.gfmul a b) s = .next { s with RES := gfmul a b, ERR := .ok }) ∧
  gfmul 0x57#8 0x13#8 = 0xFE#8 ∧ gfmul 0x80#8 2#8 = 0x1B#8 ∧ gfmul 0xFF#8 0xFF#8 = 0x13#8 ∧
  (∀ s : State, s.readReg .RES = s.RES.setWidth 32)

/-- The field rule R110 describes: doubling is `((a << 1) mod 256) xor (0x1B if a[7] = 1 else 0)`; the product is
commutative, distributive over XOR and associative, 0 and 1 act as they should, and every nonzero byte has one inverse. -/
def Obligations.GfmulFieldLaws : Prop :=
  ∀ a b c : Byte, gfmul a 2#8 = (a <<< 1) ^^^ (if a.getLsbD 7 then 0x1B#8 else 0#8) ∧
    gfmul a b = gfmul b a ∧ gfmul a 0#8 = 0#8 ∧ gfmul a 1#8 = a ∧
    gfmul a (b ^^^ c) = gfmul a b ^^^ gfmul a c ∧ gfmul a (gfmul b c) = gfmul (gfmul a b) c ∧
    (a ≠ 0#8 → ∃! x, gfmul a x = 1#8)

/-- SBOX a: RES <- sbox(a) (rule R114), with the rule's corner cases. -/
def Obligations.SboxWritesSubstitute : Prop :=
  (∀ a : Byte, Encodes (0#8 ++ 0#8 ++ a ++ 0x11#8) (.sbox a)) ∧
  (∀ (a : Byte) (s : State), exec (.sbox a) s = .next { s with RES := sbox a, ERR := .ok }) ∧
  sbox 0x00#8 = 0x63#8 ∧ sbox 0x53#8 = 0xED#8 ∧ sbox 0xFF#8 = 0x16#8 ∧
  (∀ a : Byte, (sbox a = 0#8 ↔ a = 0x52#8) ∧ sbox a ≠ a ∧ sbox a ≠ a ^^^ 0xFF#8)

/-- ISBOX a: RES <- isbox(a) (rule R115), with the rule's corner cases; the two ROMs are inverse bijections (rule R113). -/
def Obligations.IsboxWritesInverse : Prop :=
  (∀ a : Byte, Encodes (0#8 ++ 0#8 ++ a ++ 0x12#8) (.isbox a)) ∧
  (∀ (a : Byte) (s : State), exec (.isbox a) s = .next { s with RES := isbox a, ERR := .ok }) ∧
  isbox 0x00#8 = 0x52#8 ∧ isbox 0x63#8 = 0x00#8 ∧ isbox 0x16#8 = 0xFF#8 ∧ isbox 0xED#8 = 0x53#8 ∧
  (∀ x : Byte, isbox (sbox x) = x ∧ sbox (isbox x) = x)

/-- The construction of the table (rule R116): with `v` the field inverse of `x`, 0 for `x = 0`, `sbox(x)` is `v` XORed
with its rotations by 1 to 4 and 0x63. -/
def Obligations.SboxIsInverseThenAffine : Prop :=
  ∀ x v : Byte, (gfmul x v = 1#8 ∨ (x = 0#8 ∧ v = 0#8)) →
    sbox x = v ^^^ v.rotateLeft 1 ^^^ v.rotateLeft 2 ^^^ v.rotateLeft 3 ^^^ v.rotateLeft 4 ^^^ 0x63#8

/-! ### Word unit and key-schedule expander (41_word_keyschedule.md) -/

/-- WXOR: WA <- WA xor WB, byte by byte; nothing else but STATUS.ERR changes (rules R120, R121). -/
def Obligations.WxorXorsWords : Prop :=
  Encodes 0x00000020#32 .wxor ∧
  ∀ s : State, ∃ t, exec .wxor s = .next t ∧
    (∀ i < 4, byteAt t.WA i = byteAt s.WA i ^^^ byteAt s.WB i) ∧ t = { s with WA := t.WA, ERR := .ok }

/-- ROTWORD: WA <- (WA[1], WA[2], WA[3], WA[0]); nothing else but STATUS.ERR changes (rules R120, R122). -/
def Obligations.RotwordRotatesLeft : Prop :=
  Encodes 0x00000021#32 .rotword ∧
  ∀ s : State, ∃ t, exec .rotword s = .next t ∧
    byteAt t.WA 0 = byteAt s.WA 1 ∧ byteAt t.WA 1 = byteAt s.WA 2 ∧ byteAt t.WA 2 = byteAt s.WA 3 ∧
    byteAt t.WA 3 = byteAt s.WA 0 ∧ t = { s with WA := t.WA, ERR := .ok }

/-- SUBWORD: `sbox` on each byte of WA; nothing else but STATUS.ERR changes (rules R120, R123). -/
def Obligations.SubwordSubstitutesBytes : Prop :=
  Encodes 0x00000022#32 .subword ∧
  ∀ s : State, ∃ t, exec .subword s = .next t ∧
    (∀ i < 4, byteAt t.WA i = sbox (byteAt s.WA i)) ∧ t = { s with WA := t.WA, ERR := .ok }

/-- RCON a: WA <- (rc[a-1], 0, 0, 0) for 1 <= a <= 10; otherwise IllegalCommand with WA unchanged (rules R124, R125). -/
def Obligations.RconWritesConstant : Prop :=
  (∀ a : Byte, 1 ≤ a.toNat → a.toNat ≤ 10 → Encodes (0#8 ++ 0#8 ++ a ++ 0x23#8) (.rcon a)) ∧
  ∀ (a : Byte) (s : State),
    (1 ≤ a.toNat → a.toNat ≤ 10 → ∃ t, exec (.rcon a) s = .next t ∧
      byteAt t.WA 0 = [0x01#8, 0x02#8, 0x04#8, 0x08#8, 0x10#8, 0x20#8, 0x40#8, 0x80#8, 0x1B#8, 0x36#8].getD
        (a.toNat - 1) 0#8 ∧
      byteAt t.WA 1 = 0#8 ∧ byteAt t.WA 2 = 0#8 ∧ byteAt t.WA 3 = 0#8 ∧ t = { s with WA := t.WA, ERR := .ok }) ∧
    (¬(1 ≤ a.toNat ∧ a.toNat ≤ 10) → exec (.rcon a) s = .next { s with ERR := .illegalCommand })

/-- KEYEXPAND: with KLEN = 16, RK <- expand(KEYBUF) and RKV <- 1; otherwise InvalidKeyLength and RK, RKV unchanged; nothing
else but STATUS.ERR changes (rules R131, R132, R225). -/
def Obligations.KeyexpandExpandsKey : Prop :=
  Encodes 0x00000024#32 .keyexpand ∧
  ∀ s : State,
    (s.KLEN = 16#8 → exec .keyexpand s = .next { s with RK := expand s.KEYBUF, RKV := true, ERR := .ok }) ∧
    (s.KLEN ≠ 16#8 → exec .keyexpand s = .next { s with ERR := .invalidKeyLength })

/-- The recurrence of the key schedule (rule R130), byte `r` of word `i` being byte `4i + r` of the expansion: the first four
words are the key; word `i` is `word[i-4] xor word[i-1]`, with RotWord, SubWord and the round constant on `word[i-1]` when
`i` is a multiple of 4. -/
def Obligations.ExpandFollowsRecurrence : Prop :=
  ∀ (key : Block) (i r : Nat), r < 4 →
    let w (i r : Nat) : Byte := byteAt (expand key) (4 * i + r)
    (i < 4 → w i r = byteAt key (4 * i + r)) ∧
    (4 ≤ i → i < 44 → i % 4 ≠ 0 → w i r = w (i - 4) r ^^^ w (i - 1) r) ∧
    (4 ≤ i → i < 44 → i % 4 = 0 →
      w i r = w (i - 4) r ^^^ sbox (w (i - 1) ((r + 1) % 4)) ^^^
        (if r = 0 then [0x01#8, 0x02#8, 0x04#8, 0x08#8, 0x10#8, 0x20#8, 0x40#8, 0x80#8, 0x1B#8, 0x36#8].getD
          (i / 4 - 1) 0#8 else 0#8))

/-! ### Round primitives (42_state_rounds.md) -/

/-- ADDROUNDKEY a: S <- S xor RK[16a..16a+16) for a <= 10 when RKV = 1; NoKey with S unchanged when RKV = 0; IllegalCommand for
a >= 11 (rules R140, R141, R231). -/
def Obligations.AddroundkeyXorsRoundKey : Prop :=
  (∀ a : Byte, a.toNat ≤ 10 → Encodes (0#8 ++ 0#8 ++ a ++ 0x30#8) (.addroundkey a)) ∧
  ∀ (a : Byte) (s : State),
    (a.toNat ≤ 10 → s.RKV = true → ∃ t, exec (.addroundkey a) s = .next t ∧
      (∀ i < 16, byteAt t.S i = byteAt s.S i ^^^ byteAt s.RK (16 * a.toNat + i)) ∧
      t = { s with S := t.S, ERR := .ok }) ∧
    (a.toNat ≤ 10 → s.RKV = false → exec (.addroundkey a) s = .next { s with ERR := .noKey }) ∧
    (11 ≤ a.toNat → exec (.addroundkey a) s = .next { s with ERR := .illegalCommand })

/-- SUBBYTES and INVSUBBYTES: `sbox`, `isbox` on each byte of S; nothing else but STATUS.ERR changes, whatever RKV (rules
R142, R143, R144, R151). -/
def Obligations.SubBytesActByteByByte : Prop :=
  Encodes 0x00000031#32 .subbytes ∧ Encodes 0x00000032#32 .invsubbytes ∧
  ∀ s : State,
    (∃ t, exec .subbytes s = .next t ∧ (∀ i < 16, byteAt t.S i = sbox (byteAt s.S i)) ∧
      t = { s with S := t.S, ERR := .ok }) ∧
    (∃ t, exec .invsubbytes s = .next t ∧ (∀ i < 16, byteAt t.S i = isbox (byteAt s.S i)) ∧
      t = { s with S := t.S, ERR := .ok })

/-- SHIFTROWS and INVSHIFTROWS move the bytes as the table of rule R145 lists them: output byte `i` is the input byte at
the index listed; nothing else but STATUS.ERR changes (rules R145, R146, R147, R151). -/
def Obligations.ShiftRowsPermuteBytes : Prop :=
  Encodes 0x00000033#32 .shiftrows ∧ Encodes 0x00000034#32 .invshiftrows ∧
  ∀ s : State,
    (∃ t, exec .shiftrows s = .next t ∧
      (∀ i < 16, byteAt t.S i = byteAt s.S ([0, 5, 10, 15, 4, 9, 14, 3, 8, 13, 2, 7, 12, 1, 6, 11].getD i 0)) ∧
      t = { s with S := t.S, ERR := .ok }) ∧
    (∃ t, exec .invshiftrows s = .next t ∧
      (∀ i < 16, byteAt t.S i = byteAt s.S ([0, 13, 10, 7, 4, 1, 14, 11, 8, 5, 2, 15, 12, 9, 6, 3].getD i 0)) ∧
      t = { s with S := t.S, ERR := .ok })

/-- MIXCOLUMNS and INVMIXCOLUMNS: byte `4c + r` becomes the XOR of the four products of column `c` with row `r` of the
forward or inverse matrix; nothing else but STATUS.ERR changes (rules R148, R149, R150, R151). -/
def Obligations.MixColumnsMultiplyColumns : Prop :=
  Encodes 0x00000035#32 .mixcolumns ∧ Encodes 0x00000036#32 .invmixcolumns ∧
  let product (M : List (List Byte)) (s : Block) (c r : Nat) : Byte :=
    gfmul ((M.getD r []).getD 0 0#8) (byteAt s (4 * c)) ^^^ gfmul ((M.getD r []).getD 1 0#8) (byteAt s (4 * c + 1)) ^^^
      gfmul ((M.getD r []).getD 2 0#8) (byteAt s (4 * c + 2)) ^^^ gfmul ((M.getD r []).getD 3 0#8) (byteAt s (4 * c + 3))
  let F : List (List Byte) := [[2, 3, 1, 1], [1, 2, 3, 1], [1, 1, 2, 3], [3, 1, 1, 2]]
  let G : List (List Byte) := [[14, 11, 13, 9], [9, 14, 11, 13], [13, 9, 14, 11], [11, 13, 9, 14]]
  ∀ s : State,
    (∃ t, exec .mixcolumns s = .next t ∧
      (∀ c < 4, ∀ r < 4, byteAt t.S (4 * c + r) = product F s.S c r) ∧ t = { s with S := t.S, ERR := .ok }) ∧
    (∃ t, exec .invmixcolumns s = .next t ∧
      (∀ c < 4, ∀ r < 4, byteAt t.S (4 * c + r) = product G s.S c r) ∧ t = { s with S := t.S, ERR := .ok })

/-- The primitives undo each other on every block: AddRoundKey itself, SubBytes, ShiftRows and MixColumns their inverses,
in both orders; and ShiftRows commutes with SubBytes (rules R140, R142, R145, R148). -/
def Obligations.RoundPrimitivesInvert : Prop :=
  ∀ s k : Block, addroundkey (addroundkey s k) k = s ∧
    invsubbytes (subbytes s) = s ∧ subbytes (invsubbytes s) = s ∧
    invshiftrows (shiftrows s) = s ∧ shiftrows (invshiftrows s) = s ∧
    invmixcolumns (mixcolumns s) = s ∧ mixcolumns (invmixcolumns s) = s ∧
    shiftrows (subbytes s) = subbytes (shiftrows s) ∧ invshiftrows (subbytes s) = subbytes (invshiftrows s)

/-! ### Block cipher sequencer (43_block_cipher.md) -/

/-- ENCBLOCK: NoKey with S unchanged while RKV = 0; otherwise S <- the ten rounds of rule R160, whose intermediate blocks are
`st 0` to `st 10`, the last round without MixColumns; nothing else but STATUS.ERR changes (rules R160, R162, R231). -/
def Obligations.EncblockRunsTenRounds : Prop :=
  Encodes 0x00000040#32 .encblock ∧
  ∀ s : State,
    (s.RKV = false → exec .encblock s = .next { s with ERR := .noKey }) ∧
    (s.RKV = true → ∃ st : Nat → Block, st 0 = addroundkey s.S (roundKey s.RK 0) ∧
      (∀ r < 9, st (r + 1) = addroundkey (mixcolumns (shiftrows (subbytes (st r)))) (roundKey s.RK (r + 1))) ∧
      st 10 = addroundkey (shiftrows (subbytes (st 9))) (roundKey s.RK 10) ∧
      exec .encblock s = .next { s with S := st 10, ERR := .ok })

/-- DECBLOCK: NoKey with S unchanged while RKV = 0; otherwise S <- rule R161's rounds 9 to 0, `st r` being the block after
round `r` and `st 10` the block after AddRoundKey(10), AddRoundKey before InvMixColumns, round 0 without InvMixColumns;
nothing else but STATUS.ERR changes (rules R161, R163, R231). -/
def Obligations.DecblockRunsRoundsBackward : Prop :=
  Encodes 0x00000041#32 .decblock ∧
  ∀ s : State,
    (s.RKV = false → exec .decblock s = .next { s with ERR := .noKey }) ∧
    (s.RKV = true → ∃ st : Nat → Block, st 10 = addroundkey s.S (roundKey s.RK 10) ∧
      (∀ r, 1 ≤ r → r ≤ 9 →
        st r = invmixcolumns (addroundkey (invsubbytes (invshiftrows (st (r + 1)))) (roundKey s.RK r))) ∧
      st 0 = addroundkey (invsubbytes (invshiftrows (st 1))) (roundKey s.RK 0) ∧
      exec .decblock s = .next { s with S := st 0, ERR := .ok })

/-- Decryption inverts encryption and encryption inverts decryption, "for every block `s` and every schedule `rk` (whether
or not it is the expansion of a key)" (rule R161). -/
def Obligations.DecblockInvertsEncblock : Prop :=
  ∀ (s : Block) (rk : Schedule), decblock (encblock s rk) rk = s ∧ encblock (decblock s rk) rk = s

/-- "A host can therefore compose a block encryption by hand from KEYEXPAND and these commands; the result equals
ENCBLOCK's" (rule R151): the 40 commands of program P1 lead to exactly the state ENCBLOCK leads to. -/
def Obligations.HandEncryptionEqualsEncblock : Prop :=
  ∀ s t : State, s.RKV = true → exec .encblock s = .next t → runCommands handEncryption s = some t

/-! ### Padding unit (44_padding.md) -/

/-- PAD: RangeError with OLEN <- 0 when ILEN > MSG_CAP; otherwise OBUF takes the message and `n = 16 - (ILEN mod 16)` bytes of
value `n`, OLEN <- ILEN + n, and every byte of OBUF from OLEN on and everything else is unchanged (rules R170, R172). -/
def Obligations.PadAppendsPadding : Prop :=
  Encodes 0x00000050#32 .pad ∧
  ∀ s : State, s.Inv →
    (s.params.MSG_CAP < s.ILEN.toNat → exec .pad s = .next (failedWith .rangeError s)) ∧
    (s.ILEN.toNat ≤ s.params.MSG_CAP → ∃ t, exec .pad s = .next t ∧
      t.OLEN.toNat = s.ILEN.toNat + (16 - s.ILEN.toNat % 16) ∧
      (∀ k < s.ILEN.toNat, Memory.read t.OBUF k = Memory.read s.IBUF k) ∧
      (∀ k, s.ILEN.toNat ≤ k → k < t.OLEN.toNat →
        Memory.read t.OBUF k = BitVec.ofNat 8 (16 - s.ILEN.toNat % 16)) ∧
      (∀ k, t.OLEN.toNat ≤ k → Memory.read t.OBUF k = Memory.read s.OBUF k) ∧
      t = { s with OBUF := t.OBUF, OLEN := t.OLEN, ERR := .ok })

/-- STRIP: RangeError when ILEN > MSG_CAP; otherwise PaddingError, or the message without its padding, exactly as the
trailing bytes say (rules R171, R173). -/
def Obligations.StripRemovesValidPadding : Prop :=
  Encodes 0x00000051#32 .strip ∧
  ∀ s : State, s.Inv →
    (s.params.MSG_CAP < s.ILEN.toNat → exec .strip s = .next (failedWith .rangeError s)) ∧
    (s.ILEN.toNat ≤ s.params.MSG_CAP → StripOutcome (Memory.read s.IBUF) s (exec .strip s))

/-- "For every `m`, `strip(pad(m)) = m`", and a padded message is a positive multiple of 16 bytes, 1 to 16 longer than `m`
(rules R170, R171). -/
def Obligations.StripUndoesPad : Prop :=
  ∀ m : List Byte, strip (pad m) = some m ∧ (pad m).length % 16 = 0 ∧ m.length + 1 ≤ (pad m).length ∧
    (pad m).length ≤ m.length + 16

/-! ### Mode controller (45_modes.md) -/

/-- The first failing check of the prologue decides the error, in the order key length, IV or nonce length, range; the
effects are the code and OLEN <- 0, with RK, RKV, S and OBUF unchanged. ECBENC and ECBDEC check neither IVLEN nor NLEN
(rules R181, R224, R225, R226, R232, R233). -/
def Obligations.PrologueReportsFirstError : Prop :=
  ∀ s : State,
    (s.KLEN ≠ 16#8 → ∀ i ∈ [Instr.ecbenc, .ecbdec, .cbcenc, .cbcdec, .ctrxor, .ctredit],
      exec i s = .next (failedWith .invalidKeyLength s)) ∧
    (s.KLEN = 16#8 → s.IVLEN ≠ 16#8 → ∀ i ∈ [Instr.cbcenc, .cbcdec],
      exec i s = .next (failedWith .invalidIvOrNonceLength s)) ∧
    (s.KLEN = 16#8 → s.NLEN ≠ 8#8 → ∀ i ∈ [Instr.ctrxor, .ctredit],
      exec i s = .next (failedWith .invalidIvOrNonceLength s)) ∧
    (s.KLEN = 16#8 → s.params.MSG_CAP < s.ILEN.toNat →
      (∀ i ∈ [Instr.ecbenc, .ecbdec], exec i s = .next (failedWith .rangeError s)) ∧
      (s.IVLEN = 16#8 → ∀ i ∈ [Instr.cbcenc, .cbcdec], exec i s = .next (failedWith .rangeError s)) ∧
      (s.NLEN = 8#8 → ∀ i ∈ [Instr.ctrxor, .ctredit], exec i s = .next (failedWith .rangeError s))) ∧
    (s.KLEN = 16#8 → s.NLEN = 8#8 → s.ILEN.toNat ≤ s.params.MSG_CAP →
      (s.params.MSG_CAP < s.XLEN.toNat ∨ s.ILEN.toNat < s.XOFF.toNat + s.XLEN.toNat) →
      exec .ctredit s = .next (failedWith .rangeError s))

/-- ECBENC: the padded message, each block encrypted independently with the expanded key; S ends holding the last ciphertext
block (rules R181, R182, R184). -/
def Obligations.EcbencEncryptsEachBlock : Prop :=
  Encodes 0x00000060#32 .ecbenc ∧
  ∀ s : State, s.Inv → s.KLEN = 16#8 → s.ILEN.toNat ≤ s.params.MSG_CAP →
    ∃ t, exec .ecbenc s = .next t ∧ t.OLEN.toNat = 16 * (s.ILEN.toNat / 16 + 1) ∧
      (∀ i ≤ s.ILEN.toNat / 16, blockIn t.OBUF i = encblock (paddedBlock s i) (expand s.KEYBUF)) ∧
      (∀ k, t.OLEN.toNat ≤ k → Memory.read t.OBUF k = Memory.read s.OBUF k) ∧
      t.S = blockIn t.OBUF (s.ILEN.toNat / 16) ∧
      t = { keyed s with S := t.S, OBUF := t.OBUF, OLEN := t.OLEN, ERR := .ok }

/-- ECBDEC: PaddingError before any block when ILEN is 0 or not a multiple of 16; otherwise every block is decrypted, S ends
holding the last decrypted block, and the decrypted bytes are stripped; RK and RKV keep the prologue's values in every
case (rules R181, R183, R184, R227). -/
def Obligations.EcbdecDecryptsAndStrips : Prop :=
  Encodes 0x00000061#32 .ecbdec ∧
  ∀ s : State, s.Inv → s.KLEN = 16#8 → s.ILEN.toNat ≤ s.params.MSG_CAP →
    ((s.ILEN.toNat = 0 ∨ s.ILEN.toNat % 16 ≠ 0) → exec .ecbdec s = .next (failedWith .paddingError (keyed s))) ∧
    (s.ILEN.toNat ≠ 0 → s.ILEN.toNat % 16 = 0 →
      StripOutcome (fun k => byteAt (decblock (blockIn s.IBUF (k / 16)) (expand s.KEYBUF)) (k % 16))
        { keyed s with S := decblock (blockIn s.IBUF (s.ILEN.toNat / 16 - 1)) (expand s.KEYBUF) } (exec .ecbdec s))

/-- CBCENC: each padded plaintext block is XORed with the previous ciphertext block, the IV before the first, and encrypted;
S ends holding the last ciphertext block; IVBUF is not written (rules R181, R184, R185). -/
def Obligations.CbcencChainsBlocks : Prop :=
  Encodes 0x00000062#32 .cbcenc ∧
  ∀ s : State, s.Inv → s.KLEN = 16#8 → s.IVLEN = 16#8 → s.ILEN.toNat ≤ s.params.MSG_CAP →
    ∃ t, exec .cbcenc s = .next t ∧ t.OLEN.toNat = 16 * (s.ILEN.toNat / 16 + 1) ∧
      blockIn t.OBUF 0 = encblock (xorBytes (paddedBlock s 0) s.IVBUF) (expand s.KEYBUF) ∧
      (∀ i < s.ILEN.toNat / 16, blockIn t.OBUF (i + 1) =
        encblock (xorBytes (paddedBlock s (i + 1)) (blockIn t.OBUF i)) (expand s.KEYBUF)) ∧
      (∀ k, t.OLEN.toNat ≤ k → Memory.read t.OBUF k = Memory.read s.OBUF k) ∧
      t.S = blockIn t.OBUF (s.ILEN.toNat / 16) ∧
      t = { keyed s with S := t.S, OBUF := t.OBUF, OLEN := t.OLEN, ERR := .ok }

/-- CBCDEC: as ECBDEC, each decrypted block XORed with the previous ciphertext block, the IV before the first; S ends holding
`decblock` of the last ciphertext block, before the XOR (rules R181, R184, R186, R227). -/
def Obligations.CbcdecUnchainsAndStrips : Prop :=
  Encodes 0x00000063#32 .cbcdec ∧
  ∀ s : State, s.Inv → s.KLEN = 16#8 → s.IVLEN = 16#8 → s.ILEN.toNat ≤ s.params.MSG_CAP →
    ((s.ILEN.toNat = 0 ∨ s.ILEN.toNat % 16 ≠ 0) → exec .cbcdec s = .next (failedWith .paddingError (keyed s))) ∧
    (s.ILEN.toNat ≠ 0 → s.ILEN.toNat % 16 = 0 →
      StripOutcome (fun k => byteAt (decblock (blockIn s.IBUF (k / 16)) (expand s.KEYBUF)) (k % 16) ^^^
          (if k < 16 then byteAt s.IVBUF k else Memory.read s.IBUF (k - 16)))
        { keyed s with S := decblock (blockIn s.IBUF (s.ILEN.toNat / 16 - 1)) (expand s.KEYBUF) } (exec .cbcdec s))

/-- The counter block of rule R195: the nonce, then the 64-bit block index, least significant byte first, or most significant
first when CTR_BIG_ENDIAN is true; the counter wraps modulo 2^64 without carrying into the nonce. -/
def Obligations.CounterBlockLayout : Prop :=
  ∀ (bigEndian : Bool) (nonce : Nonce) (i j : Nat),
    (j < 8 → byteAt (ctrblock bigEndian nonce i) j = byteAt nonce j) ∧
    (j < 8 → byteAt (ctrblock bigEndian nonce i) (8 + j) =
      BitVec.ofNat 8 (i % 2 ^ 64 / 256 ^ (if bigEndian then 7 - j else j)))

/-- CTRXOR: every message byte is XORed with the keystream byte `encblock(ctrblock(k div 16), RK)[k mod 16]`, no padding, OLEN
<- ILEN; S ends holding the last keystream block and is unchanged for the empty message (rules R181, R184, R196, R197). -/
def Obligations.CtrxorXorsKeystream : Prop :=
  Encodes 0x00000064#32 .ctrxor ∧
  ∀ s : State, s.Inv → s.KLEN = 16#8 → s.NLEN = 8#8 → s.ILEN.toNat ≤ s.params.MSG_CAP →
    let keystream (i : Nat) : Block := encblock (ctrblock s.params.CTR_BIG_ENDIAN s.NBUF i) (expand s.KEYBUF)
    ∃ t, exec .ctrxor s = .next t ∧ t.OLEN = s.ILEN ∧
      (∀ k < s.ILEN.toNat, Memory.read t.OBUF k = Memory.read s.IBUF k ^^^ byteAt (keystream (k / 16)) (k % 16)) ∧
      (∀ k, s.ILEN.toNat ≤ k → Memory.read t.OBUF k = Memory.read s.OBUF k) ∧
      t.S = (if s.ILEN.toNat = 0 then s.S else keystream ((s.ILEN.toNat - 1) / 16)) ∧
      t = { keyed s with S := t.S, OBUF := t.OBUF, OLEN := t.OLEN, ERR := .ok }

/-- CTREDIT: the bytes `XOFF <= k < XOFF + XLEN` become `XBUF[k - XOFF]` XORed with the keystream, every other byte of the
message is copied; S ends holding keystream block `(XOFF + XLEN - 1) div 16` and is unchanged when XLEN = 0 (rules R181,
R184, R196, R198). -/
def Obligations.CtreditSplicesNewBytes : Prop :=
  Encodes 0x00000065#32 .ctredit ∧
  ∀ s : State, s.Inv → s.KLEN = 16#8 → s.NLEN = 8#8 → s.ILEN.toNat ≤ s.params.MSG_CAP →
    s.XLEN.toNat ≤ s.params.MSG_CAP → s.XOFF.toNat + s.XLEN.toNat ≤ s.ILEN.toNat →
    let keystream (i : Nat) : Block := encblock (ctrblock s.params.CTR_BIG_ENDIAN s.NBUF i) (expand s.KEYBUF)
    ∃ t, exec .ctredit s = .next t ∧ t.OLEN = s.ILEN ∧
      (∀ k < s.ILEN.toNat, Memory.read t.OBUF k =
        if s.XOFF.toNat ≤ k ∧ k < s.XOFF.toNat + s.XLEN.toNat then
          Memory.read s.XBUF (k - s.XOFF.toNat) ^^^ byteAt (keystream (k / 16)) (k % 16)
        else Memory.read s.IBUF k) ∧
      (∀ k, s.ILEN.toNat ≤ k → Memory.read t.OBUF k = Memory.read s.OBUF k) ∧
      t.S = (if s.XLEN.toNat = 0 then s.S else keystream ((s.XOFF.toNat + s.XLEN.toNat - 1) / 16)) ∧
      t = { keyed s with S := t.S, OBUF := t.OBUF, OLEN := t.OLEN, ERR := .ok }

/-- ECB round trip through the engine: for every message of at most MSG_CAP - 16 bytes and every key, ECBDEC of ECBENC's
output copied back to IBUF returns the message with ERR = 0 (rules R199(a), R274). -/
def Obligations.EcbRoundTrip : Prop :=
  ∀ s t u : State, s.Inv → s.KLEN = 16#8 → s.ILEN.toNat + 16 ≤ s.params.MSG_CAP → exec .ecbenc s = .next t →
    CopiedBack t u →
    ∃ v, exec .ecbdec u = .next v ∧ v.ERR = .ok ∧ v.OLEN = s.ILEN ∧
      ∀ k < s.ILEN.toNat, Memory.read v.OBUF k = Memory.read s.IBUF k

/-- CBC round trip through the engine, for every 16-byte IV (rules R199(a), R274). -/
def Obligations.CbcRoundTrip : Prop :=
  ∀ s t u : State, s.Inv → s.KLEN = 16#8 → s.IVLEN = 16#8 → s.ILEN.toNat + 16 ≤ s.params.MSG_CAP →
    exec .cbcenc s = .next t → CopiedBack t u →
    ∃ v, exec .cbcdec u = .next v ∧ v.ERR = .ok ∧ v.OLEN = s.ILEN ∧
      ∀ k < s.ILEN.toNat, Memory.read v.OBUF k = Memory.read s.IBUF k

/-- CTR round trip through the engine: CTRXOR of CTRXOR's output with the same key and nonce restores the message, for every
8-byte nonce (rules R197, R199(a), R199(d)). -/
def Obligations.CtrRoundTrip : Prop :=
  ∀ s t u : State, s.Inv → s.KLEN = 16#8 → s.NLEN = 8#8 → s.ILEN.toNat ≤ s.params.MSG_CAP →
    exec .ctrxor s = .next t → CopiedBack t u →
    ∃ v, exec .ctrxor u = .next v ∧ v.ERR = .ok ∧ v.OLEN = s.ILEN ∧
      ∀ k < s.ILEN.toNat, Memory.read v.OBUF k = Memory.read s.IBUF k

/-- CBC chaining sensitivity (rule R199(b)): XORing `d` into ciphertext block `i` XORs `d` into decrypted block `i + 1` where there is
one, makes decrypted block `i` the decryption of the changed block XORed with the same previous block, and changes no other
decrypted block. That block `i` differs is not claimed: "the exact new value of block `i` is whatever `decblock` gives". -/
def Obligations.CbcChainingSensitivity : Prop :=
  ∀ (rk : Schedule) (iv d : Block) (cs : List Block) (i : Nat) (h : i < cs.length),
    let t := cbcDecChain rk iv cs
    let t' := cbcDecChain rk iv (cs.set i (xorBytes cs[i] d))
    (∀ k, k ≠ i → k ≠ i + 1 → t'[k]? = t[k]?) ∧
    (i + 1 < cs.length → t'[i + 1]? = t[i + 1]?.map (fun b => xorBytes b d)) ∧
    t'[i]? = some (xorBytes (decblock (xorBytes cs[i] d) rk) (if i = 0 then iv else cs.getD (i - 1) iv))

/-- A mode command is a pure function of the inputs of rule R180: two states that agree on them, whatever their S, WA, WB, RES,
OBUF, OLEN, RK and RKV, end with the same ERR, OLEN and output bytes, and with the same RK and RKV on success. -/
def Obligations.ModeCommandsArePure : Prop :=
  ∀ (s s' t t' : State), s.Inv → s'.Inv → SameInputs s s' →
    ∀ i ∈ [Instr.ecbenc, .ecbdec, .cbcenc, .cbcdec, .ctrxor, .ctredit],
      exec i s = .next t → exec i s' = .next t' →
      t.ERR = t'.ERR ∧ t.OLEN = t'.OLEN ∧ (∀ k < t.OLEN.toNat, Memory.read t.OBUF k = Memory.read t'.OBUF k) ∧
        (t.ERR = .ok → t.RK = t'.RK ∧ t.RKV = t'.RKV)

/-! ### The machine as a whole (10_state.md, 60_exceptions.md) -/

/-- "For every state and every 32-bit command word the engine reaches a definite next state" (rule R223): no command stops the
machine. -/
def Obligations.EveryCommandAnswersNext : Prop :=
  (∀ (i : Instr) (s : State), ∃ t, exec i s = .next t) ∧
  ∀ (s : State) (rest : List BusEvent) (w : Word32),
    ∃ t, step { s with pending := .write s.params.BASE 4 w :: rest } = .next t

/-- Who writes what (rule R51): a command that rule R51 does not list as a writer of a piece of state leaves it unchanged, and
no command changes the parameters or the bus. -/
def Obligations.OnlyListedCommandsWrite : Prop :=
  ∀ (i : Instr) (s t : State), exec i s = .next t →
    (t.params = s.params ∧ t.pending = s.pending ∧ t.replies = s.replies) ∧
    (i ≠ .clear → t.WB = s.WB ∧ t.KEYBUF = s.KEYBUF ∧ t.KLEN = s.KLEN ∧ t.IVBUF = s.IVBUF ∧ t.IVLEN = s.IVLEN ∧
      t.NBUF = s.NBUF ∧ t.NLEN = s.NLEN ∧ t.IBUF = s.IBUF ∧ t.ILEN = s.ILEN ∧ t.XBUF = s.XBUF ∧ t.XLEN = s.XLEN ∧
      t.XOFF = s.XOFF) ∧
    (i ∉ [Instr.clear, .wxor, .rotword, .subword] → (∀ a, i ≠ .rcon a) → t.WA = s.WA) ∧
    (i ≠ .clear → (∀ a b, i ≠ .gfmul a b) → (∀ a, i ≠ .sbox a ∧ i ≠ .isbox a) → t.RES = s.RES) ∧
    (i ∉ [Instr.clear, .keyexpand, .ecbenc, .ecbdec, .cbcenc, .cbcdec, .ctrxor, .ctredit] →
      t.RK = s.RK ∧ t.RKV = s.RKV) ∧
    (i ∉ [Instr.clear, .pad, .strip, .ecbenc, .ecbdec, .cbcenc, .cbcdec, .ctrxor, .ctredit] →
      t.OBUF = s.OBUF ∧ t.OLEN = s.OLEN) ∧
    (i ∉ [Instr.clear, .subbytes, .invsubbytes, .shiftrows, .invshiftrows, .mixcolumns, .invmixcolumns, .encblock,
        .decblock, .ecbenc, .ecbdec, .cbcenc, .cbcdec, .ctrxor, .ctredit] → (∀ a, i ≠ .addroundkey a) → t.S = s.S)

/-- Which command can raise which error (rule R234): the outcome of a well-formed command is OK or one of the errors its row
lists. -/
def Obligations.ErrorsAreThoseOfTheTable : Prop :=
  ∀ (i : Instr) (s t : State), i.wf = true → exec i s = .next t →
    t.ERR ≠ .illegalCommand ∧
    (t.ERR = .invalidKeyLength → i ∈ [Instr.keyexpand, .ecbenc, .ecbdec, .cbcenc, .cbcdec, .ctrxor, .ctredit]) ∧
    (t.ERR = .invalidIvOrNonceLength → i ∈ [Instr.cbcenc, .cbcdec, .ctrxor, .ctredit]) ∧
    (t.ERR = .paddingError → i ∈ [Instr.strip, .ecbdec, .cbcdec]) ∧
    (t.ERR = .noKey → i ∈ [Instr.encblock, .decblock] ∨ ∃ a, i = .addroundkey a) ∧
    (t.ERR = .rangeError → i ∈ [Instr.pad, .strip, .ecbenc, .ecbdec, .cbcenc, .cbcdec, .ctrxor, .ctredit])

/-- The effects of every error (rule R224): OBUF keeps every byte; OLEN becomes 0 for the commands that produce output and is
unchanged for all others; RK and RKV can change only before a PaddingError, and S only in ECBDEC and CBCDEC; nothing else
changes. -/
def Obligations.ErrorEffects : Prop :=
  ∀ (i : Instr) (s t : State), exec i s = .next t → t.ERR ≠ .ok →
    t = { s with ERR := t.ERR, OLEN := t.OLEN, RK := t.RK, RKV := t.RKV, S := t.S } ∧
    (i ∈ [Instr.pad, .strip, .ecbenc, .ecbdec, .cbcenc, .cbcdec, .ctrxor, .ctredit] → t.OLEN = 0#32) ∧
    (i ∉ [Instr.pad, .strip, .ecbenc, .ecbdec, .cbcenc, .cbcdec, .ctrxor, .ctredit] → t.OLEN = s.OLEN) ∧
    (t.ERR ≠ .paddingError → t.RK = s.RK ∧ t.RKV = s.RKV ∧ t.S = s.S) ∧
    (i ∉ [Instr.ecbdec, .cbcdec] → t.RK = s.RK ∧ t.RKV = s.RKV ∧ t.S = s.S)

/-- Every step keeps the invariant: canonical buffers inside their capacity, OLEN inside OBUF, and "whenever RKV = 1, KLEN[7:0]
= 16 and RK = expand(KEYBUF[0..16))" (rules R28, R31, R32, R72). -/
def Obligations.StepKeepsInvariant : Prop :=
  ∀ s t : State, s.Inv → step s = .next t → t.Inv

/-- The reset state meets the invariant, for every legal value of the parameters (rule R261). -/
def Obligations.ResetMeetsInvariant : Prop :=
  State.reset.Inv ∧ ∀ p : Params, p.Legal → (State.resetWith p).Inv
end

