-- ==== Sys2Proof/Laws/Bytes.lean ====
section
/-! SUPPORT. Laws/Bytes.lean: the fixed-length byte arrays, read one byte at a time, and what each unit of the engine
computes, said byte by byte. Later proofs cite these and do not unfold the units. -/

namespace Sys2Proof.Machine

/-- Inside its bounds an array is read by index. -/
theorem byteAt_eq {n : Nat} (v : Bytes n) {i : Nat} (h : i < n) : byteAt v i = v[i] := by
  simp [byteAt, h]

@[simp] theorem byteAt_ofFn {n : Nat} (f : Fin n → Byte) (i : Nat) :
    byteAt (Vector.ofFn f) i = if h : i < n then f ⟨i, h⟩ else 0#8 := by
  by_cases h : i < n
  · simp [byteAt_eq _ h, h]
  · simp [byteAt, h]

/-- Two arrays that agree at every index are equal. -/
theorem bytes_ext {n : Nat} {u v : Bytes n} (h : ∀ i < n, byteAt u i = byteAt v i) : u = v := by
  ext i hi
  rw [← byteAt_eq u hi, ← byteAt_eq v hi, h i hi]

theorem byteAt_xorBytes {n : Nat} (u v : Bytes n) {i : Nat} (h : i < n) :
    byteAt (xorBytes u v) i = byteAt u i ^^^ byteAt v i := by
  simp [xorBytes, h, byteAt_eq]

theorem byteAt_setByte {n : Nat} (v : Bytes n) (i k : Nat) (b : Byte) (h : k < n) :
    byteAt (setByte v i b) k = if k = i then b else byteAt v k := by
  simp only [byteAt_eq _ h, setByte, Vector.getElem_setIfInBounds]
  by_cases e : i = k <;> simp [e, eq_comm]

@[simp] theorem byteAt_zeros (n i : Nat) : byteAt (zeros n) i = 0#8 := by
  by_cases h : i < n <;> simp [byteAt, zeros, h]

theorem xorBytes_cancel {n : Nat} (u v : Bytes n) : xorBytes (xorBytes u v) v = u :=
  bytes_ext fun i h => by
    rw [byteAt_xorBytes _ _ h, byteAt_xorBytes _ _ h, BitVec.xor_assoc, BitVec.xor_self, BitVec.xor_zero]

theorem byteAt_toList {n : Nat} (v : Bytes n) (i : Nat) : v.toList.getD i 0#8 = byteAt v i := by
  by_cases h : i < n <;> simp [byteAt, List.getD, h]

/-! ### Byte by byte, what each unit computes -/

theorem byteAt_rotword (u : Word) {i : Nat} (h : i < 4) : byteAt (rotword u) i = byteAt u ((i + 1) % 4) := by
  simp [rotword, h]

theorem byteAt_subword (u : Word) {i : Nat} (h : i < 4) : byteAt (subword u) i = sbox (byteAt u i) := by
  simp [subword, h, byteAt_eq]

theorem byteAt_rcon (n : Nat) {i : Nat} (h : i < 4) :
    byteAt (rcon n) i = if i = 0 then rc.getD (n - 1) 0#8 else 0#8 := by
  simp [rcon, h]

theorem byteAt_roundKey (rk : Schedule) (r : Nat) {i : Nat} (h : i < 16) :
    byteAt (roundKey rk r) i = byteAt rk (16 * r + i) := by
  simp [roundKey, h]

theorem byteAt_addroundkey (s k : Block) {i : Nat} (h : i < 16) : byteAt (addroundkey s k) i = byteAt s i ^^^ byteAt k i :=
  byteAt_xorBytes s k h

theorem byteAt_subbytes (s : Block) {i : Nat} (h : i < 16) : byteAt (subbytes s) i = sbox (byteAt s i) := by
  simp [subbytes, h, byteAt_eq]

theorem byteAt_invsubbytes (s : Block) {i : Nat} (h : i < 16) : byteAt (invsubbytes s) i = isbox (byteAt s i) := by
  simp [invsubbytes, h, byteAt_eq]

theorem byteAt_shiftrows (s : Block) {i : Nat} (h : i < 16) :
    byteAt (shiftrows s) i = byteAt s (4 * ((i / 4 + i % 4) % 4) + i % 4) := by
  simp [shiftrows, h]

theorem byteAt_invshiftrows (s : Block) {i : Nat} (h : i < 16) :
    byteAt (invshiftrows s) i = byteAt s (4 * ((i / 4 + 4 - i % 4) % 4) + i % 4) := by
  simp [invshiftrows, h]

theorem byteAt_mixcolumns (s : Block) {i : Nat} (h : i < 16) :
    byteAt (mixcolumns s) i = mixByte mixMatrix s (i / 4) (i % 4) := by
  simp [mixcolumns, h]

theorem byteAt_invmixcolumns (s : Block) {i : Nat} (h : i < 16) :
    byteAt (invmixcolumns s) i = mixByte invMixMatrix s (i / 4) (i % 4) := by
  simp [invmixcolumns, h]

theorem byteAt_blockIn (m : Memory) (i : Nat) {j : Nat} (h : j < 16) :
    byteAt (blockIn m i) j = Memory.read m (16 * i + j) := by
  simp [blockIn, h]

theorem byteAt_blockAt (m : List Byte) (i : Nat) {j : Nat} (h : j < 16) :
    byteAt (blockAt m i) j = m.getD (16 * i + j) 0#8 := by
  simp [blockAt, h]

theorem byteAt_ctrblock (be : Bool) (nonce : Nonce) (i : Nat) {j : Nat} (h : j < 16) :
    byteAt (ctrblock be nonce i) j = if j < 8 then byteAt nonce j else cntByte be (BitVec.ofNat 64 i) (j - 8) := by
  simp [ctrblock, h]

end Sys2Proof.Machine
end

