-- ==== Sys2Proof/Laws/Decode.lean ====
section
/-! SUPPORT. Laws/Decode.lean: the fields of a command word, and everything the decoder can answer (30_encoding.md rules
R90 to R96). -/

namespace Sys2Proof

/-- A word is its four fields (rule R90). -/
theorem word_fields (w : Word32) : w = zField w ++ bField w ++ aField w ++ opField w := by
  ext i hi
  simp [zField, bField, aField, opField]
  grind

@[simp] theorem opField_append (z b a op : Byte) : opField (z ++ b ++ a ++ op : BitVec (8 + 8 + 8 + 8)) = op := by
  unfold opField
  ext i hi
  simp only [BitVec.getElem_extractLsb', BitVec.getLsbD_append]
  grind

@[simp] theorem aField_append (z b a op : Byte) : aField (z ++ b ++ a ++ op : BitVec (8 + 8 + 8 + 8)) = a := by
  unfold aField
  ext i hi
  simp only [BitVec.getElem_extractLsb', BitVec.getLsbD_append]
  grind

@[simp] theorem bField_append (z b a op : Byte) : bField (z ++ b ++ a ++ op : BitVec (8 + 8 + 8 + 8)) = b := by
  unfold bField
  ext i hi
  simp only [BitVec.getElem_extractLsb', BitVec.getLsbD_append]
  grind

@[simp] theorem zField_append (z b a op : Byte) : zField (z ++ b ++ a ++ op : BitVec (8 + 8 + 8 + 8)) = z := by
  unfold zField
  ext i hi
  simp only [BitVec.getElem_extractLsb', BitVec.getLsbD_append]
  grind

@[simp] theorem opField_packWord (op a b : Byte) : opField (packWord op a b) = op := opField_append 0#8 b a op
@[simp] theorem aField_packWord (op a b : Byte) : aField (packWord op a b) = a := aField_append 0#8 b a op
@[simp] theorem bField_packWord (op a b : Byte) : bField (packWord op a b) = b := bField_append 0#8 b a op
@[simp] theorem zField_packWord (op a b : Byte) : zField (packWord op a b) = 0#8 := zField_append 0#8 b a op

/-- Two words are equal when their four fields are. -/
theorem word_ext {w v : Word32} (hz : zField w = zField v) (hb : bField w = bField v) (ha : aField w = aField v)
    (ho : opField w = opField v) : w = v := by
  rw [word_fields w, word_fields v, hz, hb, ha, ho]

/-- A word whose Z field is zero is packed from its other fields. -/
theorem packWord_fields {w : Word32} (hz : zField w = 0#8) : packWord (opField w) (aField w) (bField w) = w :=
  word_ext (by simp [hz]) (by simp) (by simp) (by simp)

/-- The fields of `w and m` are the fields of `w` and `m` combined. -/
theorem and_fields (w m : Word32) : zField (w &&& m) = zField w &&& zField m ∧ bField (w &&& m) = bField w &&& bField m ∧
    aField (w &&& m) = aField w &&& aField m ∧ opField (w &&& m) = opField w &&& opField m := by
  simp [zField, bField, aField, opField, BitVec.extractLsb'_and]

/-- `w and mask = match` field by field. -/
theorem and_eq_iff_fields (w m p : Word32) : w &&& m = p ↔
    zField w &&& zField m = zField p ∧ bField w &&& bField m = bField p ∧ aField w &&& aField m = aField p ∧
      opField w &&& opField m = opField p := by
  obtain ⟨h1, h2, h3, h4⟩ := and_fields w m
  constructor
  · rintro rfl
    exact ⟨h1.symm, h2.symm, h3.symm, h4.symm⟩
  · rintro ⟨hz, hb, ha, ho⟩
    exact word_ext (h1.trans hz) (h2.trans hb) (h3.trans ha) (h4.trans ho)

/-- A mask byte of 0xFF keeps a byte. -/
theorem byte_and_ff (b : Byte) : b &&& 0xFF#8 = b := BitVec.and_allOnes

/-- The opcode bytes of the table are distinct, so a word selects at most one row. -/
theorem opcodeRows_distinct : opcodeRows.Pairwise (fun r r' => r.op ≠ r'.op) := by decide

/-- The search of the decoder finds the row it looks for. -/
theorem find_opcodeRow {row : OpcodeRow} (h : row ∈ opcodeRows) :
    opcodeRows.find? (fun r => r.op == row.op) = some row := by
  simp only [opcodeRows, opcodeRowsField, opcodeRowsWord, opcodeRowsRounds, opcodeRowsModes, List.cons_append,
    List.nil_append, List.mem_cons, List.not_mem_nil, or_false] at h
  rcases h with h|h|h|h|h|h|h|h|h|h|h|h|h|h|h|h|h|h|h|h|h|h|h|h|h|h|h <;> subst h <;> rfl

/-- What a word that decodes is: its Z field is zero, it selects a row whose must-be-zero fields are zero, and the command is
the row's, well formed (rule R95). -/
theorem decode_eq_ok {w : Word32} {i : Instr} : decode w = .ok i ↔
    zField w = 0#8 ∧ ∃ row ∈ opcodeRows, row.op = opField w ∧ row.fmt.admits w = true ∧
      i = row.build (aField w) (bField w) ∧ i.wf = true := by
  constructor
  · intro h
    unfold decode at h
    split_ifs at h with hz
    split at h
    · cases h
    · rename_i row hr
      split_ifs at h with ha hw
      injection h with h
      exact ⟨by simpa using hz, row, List.mem_of_find?_eq_some hr, by simpa using List.find?_some hr, ha, h.symm, h ▸ hw⟩
  · rintro ⟨hz, row, hm, ho, ha, rfl, hw⟩
    unfold decode
    rw [if_neg (by simpa using hz), ← ho, find_opcodeRow hm]
    simp [ha, hw]

end Sys2Proof
end

