-- ==== Sys2Proof/Laws/Field.lean ====
section
/-! SUPPORT. Laws/Field.lean: the field multiplier is linear (40_field_sbox.md rule R110), so a law over all bytes follows
from the eight powers of x. -/

namespace Sys2Proof.Machine

/-- Doubling is linear over XOR. -/
theorem xtime_xor (a b : Byte) : xtime (a ^^^ b) = xtime a ^^^ xtime b := by
  have key : ∀ x : Byte, xtime x = (x <<< 1) ^^^ (if x.getLsbD 7 then 0x1B#8 else 0#8) := by
    intro x; unfold xtime; split <;> simp
  rw [key, key, key, BitVec.shiftLeft_xor_distrib, BitVec.getLsbD_xor]
  generalize a.getLsbD 7 = c
  generalize b.getLsbD 7 = d
  cases c <;> cases d <;> simp <;> first | ac_rfl | skip
  rw [show a <<< 1 ^^^ 27#8 ^^^ (b <<< 1 ^^^ 27#8) = a <<< 1 ^^^ b <<< 1 ^^^ (27#8 ^^^ 27#8) by ac_rfl]; simp

/-- The loop of rule R110 is linear in `a` and `p` together. -/
theorem gfmulLoop_xor_left (k : Nat) (a a' b p p' : Byte) :
    gfmulLoop k (a ^^^ a') b (p ^^^ p') = gfmulLoop k a b p ^^^ gfmulLoop k a' b p' := by
  induction k generalizing a a' b p p' with
  | zero => rfl
  | succ k ih =>
    simp only [gfmulLoop]
    rw [xtime_xor, ← ih]
    congr 1
    split
    · ac_rfl
    · rfl

/-- The loop of rule R110 is linear in `b` and `p` together. -/
theorem gfmulLoop_xor_right (k : Nat) (a b b' p p' : Byte) :
    gfmulLoop k a (b ^^^ b') (p ^^^ p') = gfmulLoop k a b p ^^^ gfmulLoop k a b' p' := by
  induction k generalizing a b b' p p' with
  | zero => rfl
  | succ k ih =>
    simp only [gfmulLoop]
    rw [BitVec.ushiftRight_xor_distrib, ← ih, BitVec.getLsbD_xor]
    congr 1
    cases b.getLsbD 0 <;> cases b'.getLsbD 0 <;> simp
    · ac_rfl
    · ac_rfl
    · rw [show p ^^^ a ^^^ (p' ^^^ a) = p ^^^ p' ^^^ (a ^^^ a) by ac_rfl]; simp

/-- The product is linear in its first operand. -/
theorem gfmul_xor_left (a a' b : Byte) : gfmul (a ^^^ a') b = gfmul a b ^^^ gfmul a' b := by
  unfold gfmul
  rw [← gfmulLoop_xor_left]; rfl

/-- A property of bytes that holds of 0, of the eight powers of x, and of the sum of any two bytes it holds of, holds of
every byte. -/
theorem byte_basis (P : Byte → Prop) (h0 : P 0#8) (hb : ∀ i : Fin 8, P (BitVec.twoPow 8 i))
    (hx : ∀ a b, P a → P b → P (a ^^^ b)) (a : Byte) : P a := by
  have sum : ∀ a : Byte, a = (List.range 8).foldl
      (fun p i => p ^^^ (if a.getLsbD i then BitVec.twoPow 8 i else 0#8)) 0#8 := by decide +kernel
  have fold : ∀ (l : List Nat) (p : Byte), (∀ i ∈ l, i < 8) → P p →
      P (l.foldl (fun p i => p ^^^ (if a.getLsbD i then BitVec.twoPow 8 i else 0#8)) p) := by
    intro l
    induction l with
    | nil => intro p _ hp; exact hp
    | cons i l ih =>
      intro p hl hp
      refine ih _ (fun j hj => hl j (by simp [hj])) (hx _ _ hp ?_)
      split
      · exact hb ⟨i, hl i (by simp)⟩
      · exact h0
  rw [sum a]
  exact fold _ _ (by simp) h0

end Sys2Proof.Machine
end

