-- ==== Sys2Proof/Laws/KeySchedule.lean ====
section
/-! SUPPORT. Laws/KeySchedule.lean: the words of the key expansion (41_word_keyschedule.md rule R130). -/

namespace Sys2Proof.Machine

/-- After `k` turns of the loop there are `k + 4` words. -/
theorem expandWords_length (key : Block) (k : Nat) : (expandWords key k).length = k + 4 := by
  induction k with
  | zero => rfl
  | succ k ih => simp [expandWords, ih]

/-- A turn of the loop leaves the words that are there. -/
theorem wordAt_expandWords_step (key : Block) (k i : Nat) (h : i < k + 4) :
    wordAt (expandWords key (k + 1)) i = wordAt (expandWords key k) i := by
  simp only [wordAt, expandWords, List.getD]
  rw [List.getElem?_append_left (by rw [expandWords_length]; exact h)]

/-- Later turns leave the words that are there. -/
theorem wordAt_expandWords (key : Block) {k : Nat} {i : Nat} (h : i < k + 4) (n : Nat) :
    wordAt (expandWords key (k + n)) i = wordAt (expandWords key k) i := by
  induction n with
  | zero => rfl
  | succ n ih => rw [← ih, ← Nat.add_assoc, wordAt_expandWords_step _ _ _ (by omega)]

/-- Byte `r` of word `i` of the expansion. -/
theorem byteAt_expand (key : Block) {i r : Nat} (hi : i < 44) (hr : r < 4) :
    byteAt (expand key) (4 * i + r) = byteAt (wordAt (expandWords key 40) i) r := by
  have : 4 * i + r < 176 := by omega
  unfold expand
  rw [byteAt_ofFn, dif_pos this]
  simp only
  rw [show (4 * i + r) / 4 = i by omega, show (4 * i + r) % 4 = r by omega]

/-- From word 4 on, each word is the loop's body at its index (rule R130). -/
theorem wordAt_expandWords_rec (key : Block) {i : Nat} (h4 : 4 ≤ i) (hi : i < 44) :
    wordAt (expandWords key 40) i = nextWord i (expandWords key 40) := by
  obtain ⟨k, rfl⟩ : ∃ k, i = k + 4 := ⟨i - 4, by omega⟩
  obtain ⟨n, hn⟩ : ∃ n, 40 = (k + 1) + n := ⟨39 - k, by omega⟩
  have e : ∀ j, j < k + 4 → wordAt (expandWords key 40) j = wordAt (expandWords key k) j := by
    intro j hj; rw [hn, Nat.add_assoc]; exact wordAt_expandWords key hj _
  have : wordAt (expandWords key 40) (k + 4) = nextWord (k + 4) (expandWords key k) := by
    rw [hn, wordAt_expandWords key (by omega)]
    simp only [wordAt, expandWords, List.getD]
    rw [List.getElem?_append_right (by rw [expandWords_length])]
    simp [expandWords_length]
  rw [this]
  unfold nextWord
  rw [e (k + 4 - 4) (by omega), e (k + 4 - 1) (by omega)]

end Sys2Proof.Machine
end

