-- ==== Sys2Proof/Laws/Memory.lean ====
section
/-! SUPPORT. Laws/Memory.lean: the laws of the large buffers. A read after a write to the same index gives the value
written, every other index reads as before, every write keeps the canonical form, and equal contents are equal data. -/

namespace Sys2Proof.Machine

@[simp] theorem read_nil (a : Nat) : Memory.read [] a = 0#8 := rfl

theorem read_cons (k : Nat) (x : Byte) (m : Memory) (a : Nat) :
    Memory.read ((k, x) :: m) a = if k = a then x else Memory.read m a := rfl

theorem canonical_tail {c : Host.Cell} {m : Memory} (h : Memory.Canonical (c :: m)) : Memory.Canonical m :=
  ⟨(List.pairwise_cons.mp h.1).2, fun d hd => h.2 d (List.mem_cons_of_mem _ hd)⟩

theorem canonical_cons {c : Host.Cell} {m : Memory} :
    Memory.Canonical (c :: m) ↔ (∀ d ∈ m, c.1 < d.1) ∧ c.2 ≠ 0#8 ∧ Memory.Canonical m := by
  simp only [Memory.Canonical, List.pairwise_cons, List.forall_mem_cons]
  tauto

/-- An index below every listed one reads 0x00. -/
theorem read_of_lt {m : Memory} {a : Nat} (h : ∀ d ∈ m, a < d.1) : Memory.read m a = 0#8 := by
  induction m with
  | nil => rfl
  | cons c m ih =>
    have hc := h c (List.mem_cons_self ..)
    rw [show c = (c.1, c.2) from rfl, read_cons, if_neg (by omega)]
    exact ih fun d hd => h d (List.mem_cons_of_mem _ hd)

/-- A write leaves every other index alone. -/
theorem read_write_ne (m : Memory) {a c : Nat} (b : Byte) (h : c ≠ a) :
    Memory.read (Memory.write m a b) c = Memory.read m c := by
  induction m with
  | nil => by_cases hb : b = 0#8 <;> simp [Memory.write, hb, read_cons, Ne.symm h]
  | cons d m ih =>
    obtain ⟨k, x⟩ := d
    rw [Memory.write]
    split_ifs with h1 h2 h3 h4
    · rfl
    · rw [read_cons, if_neg (Ne.symm h)]
    · subst h3; rw [read_cons, if_neg (Ne.symm h)]
    · subst h3; simp only [read_cons, if_neg (Ne.symm h)]
    · simp only [read_cons, ih]

/-- A read after a write to the same index gives the value written. -/
theorem read_write_self {m : Memory} (hm : Memory.Canonical m) (a : Nat) (b : Byte) :
    Memory.read (Memory.write m a b) a = b := by
  induction m with
  | nil => by_cases hb : b = 0#8 <;> simp [Memory.write, hb, read_cons]
  | cons d m ih =>
    obtain ⟨k, x⟩ := d
    have hk := canonical_cons.mp hm
    rw [Memory.write]
    split_ifs with h1 h2 h3 h4
    · rw [h2]
      exact read_of_lt fun e he => by
        rcases List.mem_cons.mp he with rfl | he
        · exact h1
        · exact lt_trans h1 (hk.1 e he)
    · rw [read_cons, if_pos rfl]
    · subst h3 h4
      exact read_of_lt fun e he => hk.1 e he
    · rw [read_cons, if_pos rfl]
    · rw [read_cons, if_neg (fun e => h3 e.symm), ih hk.2.2]

theorem read_write {m : Memory} (hm : Memory.Canonical m) (a c : Nat) (b : Byte) :
    Memory.read (Memory.write m a b) c = if c = a then b else Memory.read m c := by
  split_ifs with h
  · subst h; exact read_write_self hm _ _
  · exact read_write_ne m b h

/-- What a written memory lists: an old entry, or the new one. -/
theorem mem_write {m : Memory} {a : Nat} {b : Byte} {d : Host.Cell} (h : d ∈ Memory.write m a b) :
    d ∈ m ∨ (d = (a, b) ∧ b ≠ 0#8) := by
  induction m with
  | nil =>
    rw [Memory.write] at h
    split_ifs at h with hb
    · simp at h
    · exact .inr ⟨by simpa using h, hb⟩
  | cons e m ih =>
    obtain ⟨k, x⟩ := e
    rw [Memory.write] at h
    split_ifs at h with h1 h2 h3 h4
    · exact .inl h
    · rcases List.mem_cons.mp h with rfl | h
      · exact .inr ⟨rfl, h2⟩
      · exact .inl h
    · exact .inl (List.mem_cons_of_mem _ h)
    · rcases List.mem_cons.mp h with rfl | h
      · exact .inr ⟨rfl, h4⟩
      · exact .inl (List.mem_cons_of_mem _ h)
    · rcases List.mem_cons.mp h with rfl | h
      · exact .inl (List.mem_cons_self ..)
      · rcases ih h with h | h
        · exact .inl (List.mem_cons_of_mem _ h)
        · exact .inr h

/-- A write keeps the canonical form. -/
theorem write_canonical {m : Memory} (hm : Memory.Canonical m) (a : Nat) (b : Byte) :
    Memory.Canonical (Memory.write m a b) := by
  induction m with
  | nil =>
    rw [Memory.write]
    split_ifs with hb
    · exact hm
    · simp [Memory.Canonical, hb]
  | cons e m ih =>
    obtain ⟨k, x⟩ := e
    have hk := canonical_cons.mp hm
    rw [Memory.write]
    split_ifs with h1 h2 h3 h4
    · exact hm
    · refine canonical_cons.mpr ⟨fun d hd => ?_, h2, hm⟩
      rcases List.mem_cons.mp hd with rfl | hd
      · exact h1
      · exact lt_trans h1 (hk.1 d hd)
    · exact hk.2.2
    · subst h3
      exact canonical_cons.mpr ⟨hk.1, h4, hk.2.2⟩
    · refine canonical_cons.mpr ⟨fun d hd => ?_, hk.2.1, ih hk.2.2⟩
      rcases mem_write hd with hd | ⟨rfl, -⟩
      · exact hk.1 d hd
      · show k < a
        omega

theorem write_within {m : Memory} {cap : Nat} (hm : Memory.Within m cap) {a : Nat} (ha : a < cap) (b : Byte) :
    Memory.Within (Memory.write m a b) cap := fun d hd => by
  rcases mem_write hd with hd | ⟨rfl, -⟩
  · exact hm d hd
  · exact ha

theorem writeBytes_canonical (bs : List Byte) {m : Memory} (hm : Memory.Canonical m) (a : Nat) :
    Memory.Canonical (Memory.writeBytes m a bs) := by
  induction bs generalizing m a with
  | nil => exact hm
  | cons b bs ih => exact ih (write_canonical hm a b) _

theorem writeBytes_within (bs : List Byte) {m : Memory} {cap : Nat} (hm : Memory.Within m cap) (a : Nat)
    (h : a + bs.length ≤ cap) : Memory.Within (Memory.writeBytes m a bs) cap := by
  induction bs generalizing m a with
  | nil => exact hm
  | cons b bs ih =>
    rw [List.length_cons] at h
    exact ih (write_within hm (by omega) b) _ (by omega)

/-- What a buffer reads after a range was written. -/
theorem read_writeBytes (bs : List Byte) {m : Memory} (hm : Memory.Canonical m) (a c : Nat) :
    Memory.read (Memory.writeBytes m a bs) c =
      if a ≤ c ∧ c < a + bs.length then bs.getD (c - a) 0#8 else Memory.read m c := by
  induction bs generalizing m a with
  | nil => simp only [Memory.writeBytes, List.length_nil]; rw [if_neg (by omega)]
  | cons b bs ih =>
    rw [Memory.writeBytes, ih (write_canonical hm a b), read_write hm, List.length_cons]
    by_cases hc : c = a
    · subst hc; simp
    · by_cases h : a + 1 ≤ c ∧ c < a + 1 + bs.length
      · rw [if_pos h, if_pos (by omega), show c - a = (c - (a + 1)) + 1 by omega, List.getD_cons_succ]
      · rw [if_neg h, if_neg hc, if_neg (by omega)]

/-- The written bytes lie from index 0 on; beyond them the buffer reads as before. -/
theorem read_writeBytes_zero (bs : List Byte) {m : Memory} (hm : Memory.Canonical m) (c : Nat) :
    Memory.read (Memory.writeBytes m 0 bs) c = if c < bs.length then bs.getD c 0#8 else Memory.read m c := by
  rw [read_writeBytes bs hm]; simp

@[simp] theorem readBytes_length (m : Memory) (n : Nat) : (Memory.readBytes m n).length = n := by
  simp [Memory.readBytes]

theorem readBytes_getD (m : Memory) {n k : Nat} (h : k < n) : (Memory.readBytes m n).getD k 0#8 = Memory.read m k := by
  simp [Memory.readBytes, List.getD, h]

/-- Two buffers that read alike below `n` hold the same first `n` bytes. -/
theorem readBytes_congr {m m' : Memory} {n : Nat} (h : ∀ k < n, Memory.read m k = Memory.read m' k) :
    Memory.readBytes m n = Memory.readBytes m' n :=
  List.map_congr_left fun k hk => h k (List.mem_range.mp hk)

/-- In canonical form equal contents are equal data. -/
theorem canonical_ext {m m' : Memory} (hm : Memory.Canonical m) (hm' : Memory.Canonical m')
    (h : ∀ a, Memory.read m a = Memory.read m' a) : m = m' := by
  induction m generalizing m' with
  | nil =>
    cases m' with
    | nil => rfl
    | cons d m' =>
      obtain ⟨k, x⟩ := d
      have := h k
      rw [read_cons, if_pos rfl, read_nil] at this
      exact absurd this.symm (canonical_cons.mp hm').2.1
  | cons c m ih =>
    obtain ⟨k, x⟩ := c
    have hk := canonical_cons.mp hm
    cases m' with
    | nil =>
      have := h k
      rw [read_cons, if_pos rfl, read_nil] at this
      exact absurd this hk.2.1
    | cons d m' =>
      obtain ⟨k', x'⟩ := d
      have hk' := canonical_cons.mp hm'
      have e : k = k' := by
        rcases lt_trichotomy k k' with hlt | e | hlt
        · have := h k
          rw [read_cons, if_pos rfl, read_of_lt (m := (k', x') :: m')] at this
          · exact absurd this hk.2.1
          · intro d hd
            rcases List.mem_cons.mp hd with rfl | hd
            · exact hlt
            · exact lt_trans hlt (hk'.1 d hd)
        · exact e
        · have := h k'
          rw [read_cons (k := k'), if_pos rfl, read_of_lt (m := (k, x) :: m)] at this
          · exact absurd this.symm hk'.2.1
          · intro d hd
            rcases List.mem_cons.mp hd with rfl | hd
            · exact hlt
            · exact lt_trans hlt (hk.1 d hd)
      subst e
      have ex : x = x' := by simpa [read_cons] using h k
      subst ex
      congr 1
      refine ih hk.2.2 hk'.2.2 fun a => ?_
      by_cases ha : k = a
      · subst ha
        rw [read_of_lt hk.1, read_of_lt hk'.1]
      · simpa [read_cons, ha] using h a

end Sys2Proof.Machine
end

