-- ==== Sys2Proof/Laws/State.lean ====
section
/-! SUPPORT. Laws/State.lean: one lemma per field per named update of State, each true by rfl, so that no proof unfolds a
record update. -/

namespace Sys2Proof.Machine

/-! ### complete -/

@[simp] theorem complete_params (s : State) : s.complete.params = s.params := rfl
@[simp] theorem complete_S (s : State) : s.complete.S = s.S := rfl
@[simp] theorem complete_WA (s : State) : s.complete.WA = s.WA := rfl
@[simp] theorem complete_WB (s : State) : s.complete.WB = s.WB := rfl
@[simp] theorem complete_RK (s : State) : s.complete.RK = s.RK := rfl
@[simp] theorem complete_KEYBUF (s : State) : s.complete.KEYBUF = s.KEYBUF := rfl
@[simp] theorem complete_IVBUF (s : State) : s.complete.IVBUF = s.IVBUF := rfl
@[simp] theorem complete_NBUF (s : State) : s.complete.NBUF = s.NBUF := rfl
@[simp] theorem complete_IBUF (s : State) : s.complete.IBUF = s.IBUF := rfl
@[simp] theorem complete_OBUF (s : State) : s.complete.OBUF = s.OBUF := rfl
@[simp] theorem complete_XBUF (s : State) : s.complete.XBUF = s.XBUF := rfl
@[simp] theorem complete_ERR (s : State) : s.complete.ERR = .ok := rfl
@[simp] theorem complete_RKV (s : State) : s.complete.RKV = s.RKV := rfl
@[simp] theorem complete_RES (s : State) : s.complete.RES = s.RES := rfl
@[simp] theorem complete_KLEN (s : State) : s.complete.KLEN = s.KLEN := rfl
@[simp] theorem complete_IVLEN (s : State) : s.complete.IVLEN = s.IVLEN := rfl
@[simp] theorem complete_NLEN (s : State) : s.complete.NLEN = s.NLEN := rfl
@[simp] theorem complete_ILEN (s : State) : s.complete.ILEN = s.ILEN := rfl
@[simp] theorem complete_OLEN (s : State) : s.complete.OLEN = s.OLEN := rfl
@[simp] theorem complete_XLEN (s : State) : s.complete.XLEN = s.XLEN := rfl
@[simp] theorem complete_XOFF (s : State) : s.complete.XOFF = s.XOFF := rfl
@[simp] theorem complete_pending (s : State) : s.complete.pending = s.pending := rfl
@[simp] theorem complete_replies (s : State) : s.complete.replies = s.replies := rfl

/-! ### clearRkv -/

@[simp] theorem clearRkv_params (s : State) : s.clearRkv.params = s.params := rfl
@[simp] theorem clearRkv_S (s : State) : s.clearRkv.S = s.S := rfl
@[simp] theorem clearRkv_WA (s : State) : s.clearRkv.WA = s.WA := rfl
@[simp] theorem clearRkv_WB (s : State) : s.clearRkv.WB = s.WB := rfl
@[simp] theorem clearRkv_RK (s : State) : s.clearRkv.RK = s.RK := rfl
@[simp] theorem clearRkv_KEYBUF (s : State) : s.clearRkv.KEYBUF = s.KEYBUF := rfl
@[simp] theorem clearRkv_IVBUF (s : State) : s.clearRkv.IVBUF = s.IVBUF := rfl
@[simp] theorem clearRkv_NBUF (s : State) : s.clearRkv.NBUF = s.NBUF := rfl
@[simp] theorem clearRkv_IBUF (s : State) : s.clearRkv.IBUF = s.IBUF := rfl
@[simp] theorem clearRkv_OBUF (s : State) : s.clearRkv.OBUF = s.OBUF := rfl
@[simp] theorem clearRkv_XBUF (s : State) : s.clearRkv.XBUF = s.XBUF := rfl
@[simp] theorem clearRkv_ERR (s : State) : s.clearRkv.ERR = s.ERR := rfl
@[simp] theorem clearRkv_RKV (s : State) : s.clearRkv.RKV = false := rfl
@[simp] theorem clearRkv_RES (s : State) : s.clearRkv.RES = s.RES := rfl
@[simp] theorem clearRkv_KLEN (s : State) : s.clearRkv.KLEN = s.KLEN := rfl
@[simp] theorem clearRkv_IVLEN (s : State) : s.clearRkv.IVLEN = s.IVLEN := rfl
@[simp] theorem clearRkv_NLEN (s : State) : s.clearRkv.NLEN = s.NLEN := rfl
@[simp] theorem clearRkv_ILEN (s : State) : s.clearRkv.ILEN = s.ILEN := rfl
@[simp] theorem clearRkv_OLEN (s : State) : s.clearRkv.OLEN = s.OLEN := rfl
@[simp] theorem clearRkv_XLEN (s : State) : s.clearRkv.XLEN = s.XLEN := rfl
@[simp] theorem clearRkv_XOFF (s : State) : s.clearRkv.XOFF = s.XOFF := rfl
@[simp] theorem clearRkv_pending (s : State) : s.clearRkv.pending = s.pending := rfl
@[simp] theorem clearRkv_replies (s : State) : s.clearRkv.replies = s.replies := rfl

/-! ### raise -/

@[simp] theorem raise_params (o : Bool) (e : Err) (s : State) : (raise o e s).params = s.params := rfl
@[simp] theorem raise_S (o : Bool) (e : Err) (s : State) : (raise o e s).S = s.S := rfl
@[simp] theorem raise_WA (o : Bool) (e : Err) (s : State) : (raise o e s).WA = s.WA := rfl
@[simp] theorem raise_WB (o : Bool) (e : Err) (s : State) : (raise o e s).WB = s.WB := rfl
@[simp] theorem raise_RK (o : Bool) (e : Err) (s : State) : (raise o e s).RK = s.RK := rfl
@[simp] theorem raise_KEYBUF (o : Bool) (e : Err) (s : State) : (raise o e s).KEYBUF = s.KEYBUF := rfl
@[simp] theorem raise_IVBUF (o : Bool) (e : Err) (s : State) : (raise o e s).IVBUF = s.IVBUF := rfl
@[simp] theorem raise_NBUF (o : Bool) (e : Err) (s : State) : (raise o e s).NBUF = s.NBUF := rfl
@[simp] theorem raise_IBUF (o : Bool) (e : Err) (s : State) : (raise o e s).IBUF = s.IBUF := rfl
@[simp] theorem raise_OBUF (o : Bool) (e : Err) (s : State) : (raise o e s).OBUF = s.OBUF := rfl
@[simp] theorem raise_XBUF (o : Bool) (e : Err) (s : State) : (raise o e s).XBUF = s.XBUF := rfl
@[simp] theorem raise_ERR (o : Bool) (e : Err) (s : State) : (raise o e s).ERR = e := rfl
@[simp] theorem raise_RKV (o : Bool) (e : Err) (s : State) : (raise o e s).RKV = s.RKV := rfl
@[simp] theorem raise_RES (o : Bool) (e : Err) (s : State) : (raise o e s).RES = s.RES := rfl
@[simp] theorem raise_KLEN (o : Bool) (e : Err) (s : State) : (raise o e s).KLEN = s.KLEN := rfl
@[simp] theorem raise_IVLEN (o : Bool) (e : Err) (s : State) : (raise o e s).IVLEN = s.IVLEN := rfl
@[simp] theorem raise_NLEN (o : Bool) (e : Err) (s : State) : (raise o e s).NLEN = s.NLEN := rfl
@[simp] theorem raise_ILEN (o : Bool) (e : Err) (s : State) : (raise o e s).ILEN = s.ILEN := rfl
@[simp] theorem raise_OLEN (o : Bool) (e : Err) (s : State) : (raise o e s).OLEN = if o then 0 else s.OLEN := rfl
@[simp] theorem raise_XLEN (o : Bool) (e : Err) (s : State) : (raise o e s).XLEN = s.XLEN := rfl
@[simp] theorem raise_XOFF (o : Bool) (e : Err) (s : State) : (raise o e s).XOFF = s.XOFF := rfl
@[simp] theorem raise_pending (o : Bool) (e : Err) (s : State) : (raise o e s).pending = s.pending := rfl
@[simp] theorem raise_replies (o : Bool) (e : Err) (s : State) : (raise o e s).replies = s.replies := rfl

/-! ### raiseIllegal -/

@[simp] theorem raiseIllegal_params (s : State) : (raiseIllegal s).params = s.params := rfl
@[simp] theorem raiseIllegal_S (s : State) : (raiseIllegal s).S = s.S := rfl
@[simp] theorem raiseIllegal_WA (s : State) : (raiseIllegal s).WA = s.WA := rfl
@[simp] theorem raiseIllegal_WB (s : State) : (raiseIllegal s).WB = s.WB := rfl
@[simp] theorem raiseIllegal_RK (s : State) : (raiseIllegal s).RK = s.RK := rfl
@[simp] theorem raiseIllegal_KEYBUF (s : State) : (raiseIllegal s).KEYBUF = s.KEYBUF := rfl
@[simp] theorem raiseIllegal_IVBUF (s : State) : (raiseIllegal s).IVBUF = s.IVBUF := rfl
@[simp] theorem raiseIllegal_NBUF (s : State) : (raiseIllegal s).NBUF = s.NBUF := rfl
@[simp] theorem raiseIllegal_IBUF (s : State) : (raiseIllegal s).IBUF = s.IBUF := rfl
@[simp] theorem raiseIllegal_OBUF (s : State) : (raiseIllegal s).OBUF = s.OBUF := rfl
@[simp] theorem raiseIllegal_XBUF (s : State) : (raiseIllegal s).XBUF = s.XBUF := rfl
@[simp] theorem raiseIllegal_ERR (s : State) : (raiseIllegal s).ERR = .illegalCommand := rfl
@[simp] theorem raiseIllegal_RKV (s : State) : (raiseIllegal s).RKV = s.RKV := rfl
@[simp] theorem raiseIllegal_RES (s : State) : (raiseIllegal s).RES = s.RES := rfl
@[simp] theorem raiseIllegal_KLEN (s : State) : (raiseIllegal s).KLEN = s.KLEN := rfl
@[simp] theorem raiseIllegal_IVLEN (s : State) : (raiseIllegal s).IVLEN = s.IVLEN := rfl
@[simp] theorem raiseIllegal_NLEN (s : State) : (raiseIllegal s).NLEN = s.NLEN := rfl
@[simp] theorem raiseIllegal_ILEN (s : State) : (raiseIllegal s).ILEN = s.ILEN := rfl
@[simp] theorem raiseIllegal_OLEN (s : State) : (raiseIllegal s).OLEN = s.OLEN := rfl
@[simp] theorem raiseIllegal_XLEN (s : State) : (raiseIllegal s).XLEN = s.XLEN := rfl
@[simp] theorem raiseIllegal_XOFF (s : State) : (raiseIllegal s).XOFF = s.XOFF := rfl
@[simp] theorem raiseIllegal_pending (s : State) : (raiseIllegal s).pending = s.pending := rfl
@[simp] theorem raiseIllegal_replies (s : State) : (raiseIllegal s).replies = s.replies := rfl

/-! ### putOutput -/

@[simp] theorem putOutput_params (r : List Byte) (s : State) : (State.putOutput r s).params = s.params := rfl
@[simp] theorem putOutput_S (r : List Byte) (s : State) : (State.putOutput r s).S = s.S := rfl
@[simp] theorem putOutput_WA (r : List Byte) (s : State) : (State.putOutput r s).WA = s.WA := rfl
@[simp] theorem putOutput_WB (r : List Byte) (s : State) : (State.putOutput r s).WB = s.WB := rfl
@[simp] theorem putOutput_RK (r : List Byte) (s : State) : (State.putOutput r s).RK = s.RK := rfl
@[simp] theorem putOutput_KEYBUF (r : List Byte) (s : State) : (State.putOutput r s).KEYBUF = s.KEYBUF := rfl
@[simp] theorem putOutput_IVBUF (r : List Byte) (s : State) : (State.putOutput r s).IVBUF = s.IVBUF := rfl
@[simp] theorem putOutput_NBUF (r : List Byte) (s : State) : (State.putOutput r s).NBUF = s.NBUF := rfl
@[simp] theorem putOutput_IBUF (r : List Byte) (s : State) : (State.putOutput r s).IBUF = s.IBUF := rfl
@[simp] theorem putOutput_OBUF (r : List Byte) (s : State) : (State.putOutput r s).OBUF = Memory.writeBytes s.OBUF 0 r := rfl
@[simp] theorem putOutput_XBUF (r : List Byte) (s : State) : (State.putOutput r s).XBUF = s.XBUF := rfl
@[simp] theorem putOutput_ERR (r : List Byte) (s : State) : (State.putOutput r s).ERR = s.ERR := rfl
@[simp] theorem putOutput_RKV (r : List Byte) (s : State) : (State.putOutput r s).RKV = s.RKV := rfl
@[simp] theorem putOutput_RES (r : List Byte) (s : State) : (State.putOutput r s).RES = s.RES := rfl
@[simp] theorem putOutput_KLEN (r : List Byte) (s : State) : (State.putOutput r s).KLEN = s.KLEN := rfl
@[simp] theorem putOutput_IVLEN (r : List Byte) (s : State) : (State.putOutput r s).IVLEN = s.IVLEN := rfl
@[simp] theorem putOutput_NLEN (r : List Byte) (s : State) : (State.putOutput r s).NLEN = s.NLEN := rfl
@[simp] theorem putOutput_ILEN (r : List Byte) (s : State) : (State.putOutput r s).ILEN = s.ILEN := rfl
@[simp] theorem putOutput_OLEN (r : List Byte) (s : State) : (State.putOutput r s).OLEN = BitVec.ofNat 32 r.length := rfl
@[simp] theorem putOutput_XLEN (r : List Byte) (s : State) : (State.putOutput r s).XLEN = s.XLEN := rfl
@[simp] theorem putOutput_XOFF (r : List Byte) (s : State) : (State.putOutput r s).XOFF = s.XOFF := rfl
@[simp] theorem putOutput_pending (r : List Byte) (s : State) : (State.putOutput r s).pending = s.pending := rfl
@[simp] theorem putOutput_replies (r : List Byte) (s : State) : (State.putOutput r s).replies = s.replies := rfl

/-! ### expandKey -/

@[simp] theorem expandKey_params (s : State) : s.expandKey.params = s.params := by simp only [State.expandKey]
@[simp] theorem expandKey_S (s : State) : s.expandKey.S = s.S := by simp only [State.expandKey]
@[simp] theorem expandKey_WA (s : State) : s.expandKey.WA = s.WA := by simp only [State.expandKey]
@[simp] theorem expandKey_WB (s : State) : s.expandKey.WB = s.WB := by simp only [State.expandKey]
@[simp] theorem expandKey_RK (s : State) : s.expandKey.RK = expand s.KEYBUF := by simp only [State.expandKey]
@[simp] theorem expandKey_KEYBUF (s : State) : s.expandKey.KEYBUF = s.KEYBUF := by simp only [State.expandKey]
@[simp] theorem expandKey_IVBUF (s : State) : s.expandKey.IVBUF = s.IVBUF := by simp only [State.expandKey]
@[simp] theorem expandKey_NBUF (s : State) : s.expandKey.NBUF = s.NBUF := by simp only [State.expandKey]
@[simp] theorem expandKey_IBUF (s : State) : s.expandKey.IBUF = s.IBUF := by simp only [State.expandKey]
@[simp] theorem expandKey_OBUF (s : State) : s.expandKey.OBUF = s.OBUF := by simp only [State.expandKey]
@[simp] theorem expandKey_XBUF (s : State) : s.expandKey.XBUF = s.XBUF := by simp only [State.expandKey]
@[simp] theorem expandKey_ERR (s : State) : s.expandKey.ERR = s.ERR := by simp only [State.expandKey]
@[simp] theorem expandKey_RKV (s : State) : s.expandKey.RKV = true := by simp only [State.expandKey]
@[simp] theorem expandKey_RES (s : State) : s.expandKey.RES = s.RES := by simp only [State.expandKey]
@[simp] theorem expandKey_KLEN (s : State) : s.expandKey.KLEN = s.KLEN := by simp only [State.expandKey]
@[simp] theorem expandKey_IVLEN (s : State) : s.expandKey.IVLEN = s.IVLEN := by simp only [State.expandKey]
@[simp] theorem expandKey_NLEN (s : State) : s.expandKey.NLEN = s.NLEN := by simp only [State.expandKey]
@[simp] theorem expandKey_ILEN (s : State) : s.expandKey.ILEN = s.ILEN := by simp only [State.expandKey]
@[simp] theorem expandKey_OLEN (s : State) : s.expandKey.OLEN = s.OLEN := by simp only [State.expandKey]
@[simp] theorem expandKey_XLEN (s : State) : s.expandKey.XLEN = s.XLEN := by simp only [State.expandKey]
@[simp] theorem expandKey_XOFF (s : State) : s.expandKey.XOFF = s.XOFF := by simp only [State.expandKey]
@[simp] theorem expandKey_pending (s : State) : s.expandKey.pending = s.pending := by simp only [State.expandKey]
@[simp] theorem expandKey_replies (s : State) : s.expandKey.replies = s.replies := by simp only [State.expandKey]

/-! ### ranBlocks -/

@[simp] theorem ranBlocks_params (bs : List Block) (s : State) : (State.ranBlocks bs s).params = s.params := rfl
@[simp] theorem ranBlocks_S (bs : List Block) (s : State) : (State.ranBlocks bs s).S = bs.getLastD s.S := rfl
@[simp] theorem ranBlocks_WA (bs : List Block) (s : State) : (State.ranBlocks bs s).WA = s.WA := rfl
@[simp] theorem ranBlocks_WB (bs : List Block) (s : State) : (State.ranBlocks bs s).WB = s.WB := rfl
@[simp] theorem ranBlocks_RK (bs : List Block) (s : State) : (State.ranBlocks bs s).RK = s.RK := rfl
@[simp] theorem ranBlocks_KEYBUF (bs : List Block) (s : State) : (State.ranBlocks bs s).KEYBUF = s.KEYBUF := rfl
@[simp] theorem ranBlocks_IVBUF (bs : List Block) (s : State) : (State.ranBlocks bs s).IVBUF = s.IVBUF := rfl
@[simp] theorem ranBlocks_NBUF (bs : List Block) (s : State) : (State.ranBlocks bs s).NBUF = s.NBUF := rfl
@[simp] theorem ranBlocks_IBUF (bs : List Block) (s : State) : (State.ranBlocks bs s).IBUF = s.IBUF := rfl
@[simp] theorem ranBlocks_OBUF (bs : List Block) (s : State) : (State.ranBlocks bs s).OBUF = s.OBUF := rfl
@[simp] theorem ranBlocks_XBUF (bs : List Block) (s : State) : (State.ranBlocks bs s).XBUF = s.XBUF := rfl
@[simp] theorem ranBlocks_ERR (bs : List Block) (s : State) : (State.ranBlocks bs s).ERR = s.ERR := rfl
@[simp] theorem ranBlocks_RKV (bs : List Block) (s : State) : (State.ranBlocks bs s).RKV = s.RKV := rfl
@[simp] theorem ranBlocks_RES (bs : List Block) (s : State) : (State.ranBlocks bs s).RES = s.RES := rfl
@[simp] theorem ranBlocks_KLEN (bs : List Block) (s : State) : (State.ranBlocks bs s).KLEN = s.KLEN := rfl
@[simp] theorem ranBlocks_IVLEN (bs : List Block) (s : State) : (State.ranBlocks bs s).IVLEN = s.IVLEN := rfl
@[simp] theorem ranBlocks_NLEN (bs : List Block) (s : State) : (State.ranBlocks bs s).NLEN = s.NLEN := rfl
@[simp] theorem ranBlocks_ILEN (bs : List Block) (s : State) : (State.ranBlocks bs s).ILEN = s.ILEN := rfl
@[simp] theorem ranBlocks_OLEN (bs : List Block) (s : State) : (State.ranBlocks bs s).OLEN = s.OLEN := rfl
@[simp] theorem ranBlocks_XLEN (bs : List Block) (s : State) : (State.ranBlocks bs s).XLEN = s.XLEN := rfl
@[simp] theorem ranBlocks_XOFF (bs : List Block) (s : State) : (State.ranBlocks bs s).XOFF = s.XOFF := rfl
@[simp] theorem ranBlocks_pending (bs : List Block) (s : State) : (State.ranBlocks bs s).pending = s.pending := rfl
@[simp] theorem ranBlocks_replies (bs : List Block) (s : State) : (State.ranBlocks bs s).replies = s.replies := rfl

/-! ### reply -/

@[simp] theorem reply_params (r : Reply) (s : State) : (State.reply r s).params = s.params := rfl
@[simp] theorem reply_S (r : Reply) (s : State) : (State.reply r s).S = s.S := rfl
@[simp] theorem reply_WA (r : Reply) (s : State) : (State.reply r s).WA = s.WA := rfl
@[simp] theorem reply_WB (r : Reply) (s : State) : (State.reply r s).WB = s.WB := rfl
@[simp] theorem reply_RK (r : Reply) (s : State) : (State.reply r s).RK = s.RK := rfl
@[simp] theorem reply_KEYBUF (r : Reply) (s : State) : (State.reply r s).KEYBUF = s.KEYBUF := rfl
@[simp] theorem reply_IVBUF (r : Reply) (s : State) : (State.reply r s).IVBUF = s.IVBUF := rfl
@[simp] theorem reply_NBUF (r : Reply) (s : State) : (State.reply r s).NBUF = s.NBUF := rfl
@[simp] theorem reply_IBUF (r : Reply) (s : State) : (State.reply r s).IBUF = s.IBUF := rfl
@[simp] theorem reply_OBUF (r : Reply) (s : State) : (State.reply r s).OBUF = s.OBUF := rfl
@[simp] theorem reply_XBUF (r : Reply) (s : State) : (State.reply r s).XBUF = s.XBUF := rfl
@[simp] theorem reply_ERR (r : Reply) (s : State) : (State.reply r s).ERR = s.ERR := rfl
@[simp] theorem reply_RKV (r : Reply) (s : State) : (State.reply r s).RKV = s.RKV := rfl
@[simp] theorem reply_RES (r : Reply) (s : State) : (State.reply r s).RES = s.RES := rfl
@[simp] theorem reply_KLEN (r : Reply) (s : State) : (State.reply r s).KLEN = s.KLEN := rfl
@[simp] theorem reply_IVLEN (r : Reply) (s : State) : (State.reply r s).IVLEN = s.IVLEN := rfl
@[simp] theorem reply_NLEN (r : Reply) (s : State) : (State.reply r s).NLEN = s.NLEN := rfl
@[simp] theorem reply_ILEN (r : Reply) (s : State) : (State.reply r s).ILEN = s.ILEN := rfl
@[simp] theorem reply_OLEN (r : Reply) (s : State) : (State.reply r s).OLEN = s.OLEN := rfl
@[simp] theorem reply_XLEN (r : Reply) (s : State) : (State.reply r s).XLEN = s.XLEN := rfl
@[simp] theorem reply_XOFF (r : Reply) (s : State) : (State.reply r s).XOFF = s.XOFF := rfl
@[simp] theorem reply_pending (r : Reply) (s : State) : (State.reply r s).pending = s.pending := rfl
@[simp] theorem reply_replies (r : Reply) (s : State) : (State.reply r s).replies = r :: s.replies := rfl

/-! ### The reset state -/

@[simp] theorem engineReset_params (s : State) : s.engineReset.params = s.params := rfl
@[simp] theorem engineReset_S (s : State) : s.engineReset.S = zeros 16 := rfl
@[simp] theorem engineReset_WA (s : State) : s.engineReset.WA = zeros 4 := rfl
@[simp] theorem engineReset_WB (s : State) : s.engineReset.WB = zeros 4 := rfl
@[simp] theorem engineReset_RK (s : State) : s.engineReset.RK = zeros 176 := rfl
@[simp] theorem engineReset_KEYBUF (s : State) : s.engineReset.KEYBUF = zeros 16 := rfl
@[simp] theorem engineReset_IVBUF (s : State) : s.engineReset.IVBUF = zeros 16 := rfl
@[simp] theorem engineReset_NBUF (s : State) : s.engineReset.NBUF = zeros 8 := rfl
@[simp] theorem engineReset_IBUF (s : State) : s.engineReset.IBUF = [] := rfl
@[simp] theorem engineReset_OBUF (s : State) : s.engineReset.OBUF = [] := rfl
@[simp] theorem engineReset_XBUF (s : State) : s.engineReset.XBUF = [] := rfl
@[simp] theorem engineReset_ERR (s : State) : s.engineReset.ERR = .ok := rfl
@[simp] theorem engineReset_RKV (s : State) : s.engineReset.RKV = false := rfl
@[simp] theorem engineReset_RES (s : State) : s.engineReset.RES = 0 := rfl
@[simp] theorem engineReset_KLEN (s : State) : s.engineReset.KLEN = 0 := rfl
@[simp] theorem engineReset_IVLEN (s : State) : s.engineReset.IVLEN = 0 := rfl
@[simp] theorem engineReset_NLEN (s : State) : s.engineReset.NLEN = 0 := rfl
@[simp] theorem engineReset_ILEN (s : State) : s.engineReset.ILEN = 0 := rfl
@[simp] theorem engineReset_OLEN (s : State) : s.engineReset.OLEN = 0 := rfl
@[simp] theorem engineReset_XLEN (s : State) : s.engineReset.XLEN = 0 := rfl
@[simp] theorem engineReset_XOFF (s : State) : s.engineReset.XOFF = 0 := rfl
@[simp] theorem engineReset_pending (s : State) : s.engineReset.pending = s.pending := rfl
@[simp] theorem engineReset_replies (s : State) : s.engineReset.replies = s.replies := rfl

@[simp] theorem resetWith_S (p : Params) : (State.resetWith p).S = zeros 16 := rfl
@[simp] theorem resetWith_WA (p : Params) : (State.resetWith p).WA = zeros 4 := rfl
@[simp] theorem resetWith_WB (p : Params) : (State.resetWith p).WB = zeros 4 := rfl
@[simp] theorem resetWith_RK (p : Params) : (State.resetWith p).RK = zeros 176 := rfl
@[simp] theorem resetWith_KEYBUF (p : Params) : (State.resetWith p).KEYBUF = zeros 16 := rfl
@[simp] theorem resetWith_IVBUF (p : Params) : (State.resetWith p).IVBUF = zeros 16 := rfl
@[simp] theorem resetWith_NBUF (p : Params) : (State.resetWith p).NBUF = zeros 8 := rfl
@[simp] theorem resetWith_IBUF (p : Params) : (State.resetWith p).IBUF = [] := rfl
@[simp] theorem resetWith_OBUF (p : Params) : (State.resetWith p).OBUF = [] := rfl
@[simp] theorem resetWith_XBUF (p : Params) : (State.resetWith p).XBUF = [] := rfl
@[simp] theorem resetWith_ERR (p : Params) : (State.resetWith p).ERR = .ok := rfl
@[simp] theorem resetWith_RKV (p : Params) : (State.resetWith p).RKV = false := rfl
@[simp] theorem resetWith_RES (p : Params) : (State.resetWith p).RES = 0 := rfl
@[simp] theorem resetWith_KLEN (p : Params) : (State.resetWith p).KLEN = 0 := rfl
@[simp] theorem resetWith_IVLEN (p : Params) : (State.resetWith p).IVLEN = 0 := rfl
@[simp] theorem resetWith_NLEN (p : Params) : (State.resetWith p).NLEN = 0 := rfl
@[simp] theorem resetWith_ILEN (p : Params) : (State.resetWith p).ILEN = 0 := rfl
@[simp] theorem resetWith_OLEN (p : Params) : (State.resetWith p).OLEN = 0 := rfl
@[simp] theorem resetWith_XLEN (p : Params) : (State.resetWith p).XLEN = 0 := rfl
@[simp] theorem resetWith_XOFF (p : Params) : (State.resetWith p).XOFF = 0 := rfl
@[simp] theorem resetWith_params (p : Params) : (State.resetWith p).params = p := rfl
@[simp] theorem resetWith_pending (p : Params) : (State.resetWith p).pending = [] := rfl
@[simp] theorem resetWith_replies (p : Params) : (State.resetWith p).replies = [] := rfl

end Sys2Proof.Machine
end

