-- ==== Sys2Proof/Laws/Messages.lean ====
section
/-! SUPPORT. Laws/Messages.lean: messages as byte sequences and as blocks, padding and stripping, and the output buffer
(44_padding.md, 10_state.md rules R31, R32). -/

namespace Sys2Proof.Machine

/-! ### Blocks of a byte sequence -/

@[simp] theorem blocksOf_length (m : List Byte) : (blocksOf m).length = m.length / 16 := by simp [blocksOf]

theorem blocksOf_getElem? (m : List Byte) {i : Nat} (h : i < m.length / 16) : (blocksOf m)[i]? = some (blockAt m i) := by
  simp [blocksOf, h]

@[simp] theorem joinBlocks_nil : joinBlocks [] = [] := rfl

@[simp] theorem joinBlocks_cons (b : Block) (bs : List Block) : joinBlocks (b :: bs) = b.toList ++ joinBlocks bs := rfl

@[simp] theorem joinBlocks_length (bs : List Block) : (joinBlocks bs).length = 16 * bs.length := by
  induction bs with
  | nil => rfl
  | cons b bs ih => simp [ih]; omega

/-- Byte `k` of a concatenation of blocks is byte `k mod 16` of block `k div 16`. -/
theorem joinBlocks_getD (bs : List Block) (k : Nat) :
    (joinBlocks bs).getD k 0#8 = byteAt (bs.getD (k / 16) (zeros 16)) (k % 16) := by
  induction bs generalizing k with
  | nil => simp
  | cons b bs ih =>
    rw [joinBlocks_cons]
    by_cases h : k < 16
    · rw [List.getD_append _ _ _ _ (by simpa using h), byteAt_toList, Nat.div_eq_of_lt h, Nat.mod_eq_of_lt h]; rfl
    · rw [List.getD_append_right _ _ _ _ (by simpa using h), Vector.length_toList, ih,
        show k / 16 = (k - 16) / 16 + 1 by omega, show k % 16 = (k - 16) % 16 by omega, List.getD_cons_succ]

/-! ### The input message -/

@[simp] theorem message_length (s : State) : (message s).length = s.ILEN.toNat := readBytes_length _ _

theorem message_getD (s : State) {k : Nat} (h : k < s.ILEN.toNat) : (message s).getD k 0#8 = Memory.read s.IBUF k :=
  readBytes_getD _ h

/-- A whole block of the message is that block of IBUF. -/
theorem blockAt_message (s : State) {i : Nat} (h : 16 * i + 16 ≤ s.ILEN.toNat) : blockAt (message s) i = blockIn s.IBUF i :=
  bytes_ext fun j hj => by rw [byteAt_blockAt _ _ hj, byteAt_blockIn _ _ hj, message_getD _ (by omega)]

/-! ### Padding -/

theorem padLength_bounds (n : Nat) : 1 ≤ padLength n ∧ padLength n ≤ 16 := by unfold padLength; omega

theorem pad_length (m : List Byte) : (pad m).length = m.length + (16 - m.length % 16) := by simp [pad, padLength]

/-- A padded message has one whole block more than the message has. -/
theorem pad_length_blocks (m : List Byte) : (pad m).length = 16 * (m.length / 16 + 1) := by rw [pad_length]; omega

theorem pad_getD (m : List Byte) {k : Nat} (h : k < (pad m).length) :
    (pad m).getD k 0#8 = if k < m.length then m.getD k 0#8 else BitVec.ofNat 8 (16 - m.length % 16) := by
  rw [pad_length] at h
  unfold pad padLength
  split
  · rw [List.getD_append _ _ _ _ (by assumption)]
  · rw [List.getD_append_right _ _ _ _ (by omega)]
    rw [List.getD, List.getElem?_replicate, if_pos (by omega)]; rfl

/-- Block `i` of the padded message. -/
theorem blockAt_pad (s : State) {i : Nat} (h : i ≤ s.ILEN.toNat / 16) : blockAt (pad (message s)) i = paddedBlock s i :=
  bytes_ext fun j hj => by
    have hl : 16 * i + j < (pad (message s)).length := by rw [pad_length_blocks, message_length]; omega
    rw [byteAt_blockAt _ _ hj, pad_getD _ hl, message_length, paddedBlock, byteAt_ofFn, dif_pos hj]
    split
    · rw [message_getD _ (by assumption)]
    · rfl

/-! ### Output -/

/-- What the output buffer reads after a result was put there (rule R32). -/
theorem read_putOutput {r : List Byte} {s : State} (h : Memory.Canonical s.OBUF) (k : Nat) :
    Memory.read (State.putOutput r s).OBUF k = if k < r.length then r.getD k 0#8 else Memory.read s.OBUF k :=
  read_writeBytes_zero r h k

theorem olen_putOutput {r : List Byte} (s : State) (h : r.length ≤ 65536) :
    (State.putOutput r s).OLEN.toNat = r.length := by
  show (BitVec.ofNat 32 r.length).toNat = _
  rw [BitVec.toNat_ofNat, Nat.mod_eq_of_lt (by omega)]

/-! ### Stripping -/

/-- `strip` succeeds exactly on valid padding, and then removes it (rule R171). -/
theorem strip_eq (m : List Byte) (f : Nat → Byte) (hf : ∀ k < m.length, m.getD k 0#8 = f k) :
    (ValidPadding f m.length ∧ strip m = some (m.take (m.length - (f (m.length - 1)).toNat))) ∨
    (¬ValidPadding f m.length ∧ strip m = none) := by
  unfold strip
  cases hl : m.getLast? with
  | none =>
    have : m = [] := List.getLast?_eq_none_iff.mp hl
    subst this
    exact .inr ⟨fun h => absurd h.1 (by simp), rfl⟩
  | some n =>
    have hpos : 0 < m.length := by
      rcases m with _ | ⟨_, _⟩
      · simp at hl
      · simp
    have hn : f (m.length - 1) = n := by
      rw [← hf _ (by omega), List.getD, ← List.getLast?_eq_getElem?, hl]; rfl
    simp only
    unfold ValidPadding
    rw [hn]
    have hall : (m.drop (m.length - n.toNat)).all (fun b => b == n) = true ↔
        ∀ j, m.length - n.toNat ≤ j → j < m.length → f j = n := by
      rw [List.all_eq_true]
      constructor
      · intro h j h1 h2
        rw [← hf j h2]
        have : m.getD j 0#8 ∈ m.drop (m.length - n.toNat) := by
          rw [List.mem_iff_getElem?]
          exact ⟨j - (m.length - n.toNat), by
            rw [List.getElem?_drop, show m.length - n.toNat + (j - (m.length - n.toNat)) = j by omega, List.getD,
              List.getElem?_eq_getElem h2]; rfl⟩
        simpa using h _ this
      · intro h x hx
        rw [List.mem_iff_getElem?] at hx
        obtain ⟨j, hj⟩ := hx
        rw [List.getElem?_drop] at hj
        have hlt : m.length - n.toNat + j < m.length := by
          by_contra hc
          rw [List.getElem?_eq_none (by omega)] at hj
          cases hj
        have := h _ (by omega) hlt
        rw [← hf _ hlt, List.getD, hj] at this
        simpa using this
    split_ifs with h1 h2 h3
    · exact .inr ⟨fun h => by omega, rfl⟩
    · exact .inr ⟨fun h => by omega, rfl⟩
    · exact .inl ⟨⟨hpos, by omega, by omega, by omega, hall.mp h3⟩, rfl⟩
    · exact .inr ⟨fun h => h3 (hall.mpr h.2.2.2.2), rfl⟩

/-- Everything a command that ends in `strip(t)` can do (rules R173, R183, R186). -/
theorem stripToOutput_outcome {t : List Byte} {s : State} (f : Nat → Byte) (hl : t.length = s.ILEN.toNat)
    (hf : ∀ k < t.length, t.getD k 0#8 = f k) (hc : Memory.Canonical s.OBUF) (hb : t.length ≤ 65536) :
    StripOutcome f s (.next (stripToOutput t s)) := by
  unfold StripOutcome stripToOutput
  rw [← hl]
  rcases strip_eq t f hf with ⟨hv, he⟩ | ⟨hv, he⟩
  · rw [he]
    refine ⟨fun h => absurd hv h, fun _ => ⟨_, rfl, ?_, ?_, ?_, ?_⟩⟩
    · rw [complete_OLEN, olen_putOutput _ (by simp; omega)]; simp
    · intro k hk
      rw [complete_OLEN, olen_putOutput _ (by simp; omega)] at hk
      rw [complete_OBUF, read_putOutput hc, if_pos hk]
      rw [List.length_take] at hk
      rw [List.getD, List.getElem?_take, if_pos (by omega), ← hf k (by omega)]; rfl
    · intro k hk
      rw [complete_OLEN, olen_putOutput _ (by simp; omega)] at hk
      rw [complete_OBUF, read_putOutput hc, if_neg (by omega)]
    · rfl
  · rw [he]
    exact ⟨fun _ => rfl, fun h => absurd h hv⟩

end Sys2Proof.Machine
end

