-- ==== Sys2Proof/Laws/Modes.lean ====
section
/-! SUPPORT. Laws/Modes.lean: the mode controller (45_modes.md): what its prologue decides, the block chains index by
index, and the three ways a mode command can end. -/

namespace Sys2Proof.Machine

/-! ### The prologue (rule R181) -/

theorem prologue_ok {M : Mode} {s : State} (h : modeCheck M s = .ok) (body : State → State) :
    prologue M body s = body s.expandKey := if_pos h

theorem prologue_err {M : Mode} {s : State} (h : modeCheck M s ≠ .ok) (body : State → State) :
    prologue M body s = raise true (modeCheck M s) s := if_neg h

/-- The checks pass when the lengths are right and the ranges fit. -/
theorem modeCheck_ok {M : Mode} {s : State} (hk : s.KLEN = 16#8) (hv : M.usesIv = true → s.IVLEN = 16#8)
    (hn : M.usesNonce = true → s.NLEN = 8#8) (hl : s.ILEN.toNat ≤ s.params.MSG_CAP)
    (he : M = .ctredit → s.XLEN.toNat ≤ s.params.MSG_CAP ∧ s.XOFF.toNat + s.XLEN.toNat ≤ s.ILEN.toNat) :
    modeCheck M s = .ok := by
  have hm : messageTooLong s = false := by simp [messageTooLong]; omega
  unfold modeCheck
  rw [if_neg (by simp [hk]), if_neg (by rintro ⟨a, b⟩; exact b (hv a)), if_neg (by rintro ⟨a, b⟩; exact b (hn a)),
    if_neg (by simp [hm]), if_neg]
  rintro ⟨a, b⟩
  have := he a
  simp [editOutOfRange] at b
  omega

/-- The errors the checks can report. -/
theorem modeCheck_cases (M : Mode) (s : State) :
    modeCheck M s = .ok ∨ modeCheck M s = .invalidKeyLength ∨
      (modeCheck M s = .invalidIvOrNonceLength ∧ (M.usesIv = true ∨ M.usesNonce = true)) ∨ modeCheck M s = .rangeError := by
  unfold modeCheck
  split_ifs with h1 h2 h3 <;> simp_all

/-- Checks that pass say that the key has 16 bytes. -/
theorem klen_of_modeCheck {M : Mode} {s : State} (h : modeCheck M s = .ok) : s.KLEN = 16#8 := by
  unfold modeCheck at h
  split_ifs at h with h1
  simpa using h1

/-- Checks that pass say that the message fits the buffer. -/
theorem ilen_of_modeCheck {M : Mode} {s : State} (h : modeCheck M s = .ok) : s.ILEN.toNat ≤ s.params.MSG_CAP := by
  unfold modeCheck at h
  split_ifs at h with h1 h2 h3 h4
  simpa [messageTooLong] using h4

/-! ### The chains -/

@[simp] theorem cbcEncChain_length (rk : Schedule) (prev : Block) (ps : List Block) :
    (cbcEncChain rk prev ps).length = ps.length := by
  induction ps generalizing prev with
  | nil => rfl
  | cons p ps ih => simp [cbcEncChain, ih]

/-- Ciphertext block `i` of CBC encryption (rule R185). -/
theorem cbcEncChain_getD (rk : Schedule) (prev : Block) (ps : List Block) (d : Block) {i : Nat} (h : i < ps.length) :
    (cbcEncChain rk prev ps).getD i d =
      encblock (xorBytes (ps.getD i d) (if i = 0 then prev else (cbcEncChain rk prev ps).getD (i - 1) d)) rk := by
  induction ps generalizing prev i with
  | nil => cases h
  | cons p ps ih =>
    cases i with
    | zero => rfl
    | succ i =>
      rw [cbcEncChain, List.getD_cons_succ, List.getD_cons_succ, ih _ (by simpa using h)]
      cases i with
      | zero => rfl
      | succ i => simp

@[simp] theorem cbcDecChain_length (rk : Schedule) (prev : Block) (cs : List Block) :
    (cbcDecChain rk prev cs).length = cs.length := by
  induction cs generalizing prev with
  | nil => rfl
  | cons c cs ih => simp [cbcDecChain, ih]

/-- Plaintext block `i` of CBC decryption (rule R186). -/
theorem cbcDecChain_getD (rk : Schedule) (prev : Block) (cs : List Block) (d : Block) {i : Nat} (h : i < cs.length) :
    (cbcDecChain rk prev cs).getD i d =
      xorBytes (decblock (cs.getD i d) rk) (if i = 0 then prev else cs.getD (i - 1) d) := by
  induction cs generalizing prev i with
  | nil => cases h
  | cons c cs ih =>
    cases i with
    | zero => rfl
    | succ i =>
      rw [cbcDecChain, List.getD_cons_succ, List.getD_cons_succ, ih _ (by simpa using h)]
      cases i with
      | zero => rfl
      | succ i => simp

/-- After at least one block, S holds the last. -/
theorem ranBlocks_last {outs : List Block} (s : State) (d : Block) (h : 0 < outs.length) :
    (State.ranBlocks outs s).S = outs.getD (outs.length - 1) d := by
  show outs.getLastD s.S = _
  rw [List.getLastD_eq_getLast?, List.getLast?_eq_getElem?, List.getD, List.getElem?_eq_getElem (by omega)]
  rfl

/-- Block `i` of the output buffer after whole blocks were put there. -/
theorem blockIn_putOutput {outs : List Block} {s : State} (hc : Memory.Canonical s.OBUF) {i : Nat} (h : i < outs.length) :
    blockIn (State.putOutput (joinBlocks outs) s).OBUF i = outs.getD i (zeros 16) :=
  bytes_ext fun j hj => by
    rw [byteAt_blockIn _ _ hj, read_putOutput hc, if_pos (by rw [joinBlocks_length]; omega), joinBlocks_getD,
      show (16 * i + j) / 16 = i by omega, show (16 * i + j) % 16 = j by omega]

/-- Byte `k` of the exclusive or of two sequences. -/
theorem zipWith_xor_getD (a b : List Byte) {k : Nat} (ha : k < a.length) (hb : k < b.length) :
    (List.zipWith (· ^^^ ·) a b).getD k 0#8 = a.getD k 0#8 ^^^ b.getD k 0#8 := by
  simp [List.getD, ha, hb]

/-! ### The ways a command can end -/

/-- A command that ends in `strip(r)` puts at most `r` as output, or raises PaddingError. -/
theorem stripToOutput_cases (r : List Byte) (s : State) :
    (∃ q, q.length ≤ r.length ∧ stripToOutput r s = State.complete (State.putOutput q s)) ∨
      stripToOutput r s = raise true .paddingError s := by
  unfold stripToOutput
  cases h : strip r with
  | none => exact .inr rfl
  | some q =>
    refine .inl ⟨q, ?_, rfl⟩
    rcases strip_eq r (fun k => r.getD k 0#8) (fun _ _ => rfl) with ⟨_, he⟩ | ⟨_, he⟩
    · rw [he] at h; injection h with h; rw [← h, List.length_take]; omega
    · rw [he] at h; cases h

/-- How a mode command can end: a check failed and nothing but ERR and OLEN changed; or the key was expanded, some blocks
passed through S, and a result of at most ILEN + 16 bytes was put in OBUF; or, in the two decryptions, PaddingError after
the key was expanded. -/
def ModeEnd (M : Mode) (s t : State) : Prop :=
  (modeCheck M s ≠ .ok ∧ t = raise true (modeCheck M s) s) ∨
  (modeCheck M s = .ok ∧ ∃ outs r, r.length ≤ s.ILEN.toNat + 16 ∧
    t = State.complete (State.putOutput r (State.ranBlocks outs s.expandKey))) ∨
  (modeCheck M s = .ok ∧ M ∈ [Mode.ecbdec, .cbcdec] ∧ ∃ outs, t = raise true .paddingError (State.ranBlocks outs s.expandKey))

theorem prologue_end {M : Mode} {body : State → State} {s : State}
    (h : modeCheck M s = .ok → ModeEnd M s (body s.expandKey)) : ModeEnd M s (prologue M body s) := by
  by_cases hm : modeCheck M s = .ok
  · rw [prologue_ok hm]; exact h hm
  · rw [prologue_err hm]; exact .inl ⟨hm, rfl⟩

theorem ecbenc_end (s : State) : ModeEnd .ecbenc s (prologue .ecbenc ecbencBody s) := prologue_end fun h =>
  .inr (.inl ⟨h, (blocksOf (pad (message s))).map (fun p => encblock p (expand s.KEYBUF)), _, by
    rw [joinBlocks_length, List.length_map, blocksOf_length, pad_length_blocks]
    show 16 * (16 * ((message s).length / 16 + 1) / 16) ≤ _
    rw [message_length]; omega, rfl⟩)

theorem ecbdec_end (s : State) : ModeEnd .ecbdec s (prologue .ecbdec ecbdecBody s) := prologue_end fun h => by
  unfold ecbdecBody
  split
  · exact .inr (.inr ⟨h, by decide, [], rfl⟩)
  · rcases stripToOutput_cases (joinBlocks ((blocksOf (message s)).map (fun c => decblock c (expand s.KEYBUF))))
      (State.ranBlocks ((blocksOf (message s)).map (fun c => decblock c (expand s.KEYBUF))) s.expandKey) with ⟨q, hq, he⟩ | he
    · refine .inr (.inl ⟨h, _, q, ?_, he⟩)
      rw [joinBlocks_length, List.length_map, blocksOf_length, message_length] at hq
      omega
    · exact .inr (.inr ⟨h, by decide, _, he⟩)

theorem cbcenc_end (s : State) : ModeEnd .cbcenc s (prologue .cbcenc cbcencBody s) := prologue_end fun h =>
  .inr (.inl ⟨h, cbcEncChain (expand s.KEYBUF) s.IVBUF (blocksOf (pad (message s))), _, by
    rw [joinBlocks_length, cbcEncChain_length, blocksOf_length, pad_length_blocks]
    show 16 * (16 * ((message s).length / 16 + 1) / 16) ≤ _
    rw [message_length]; omega, rfl⟩)

theorem cbcdec_end (s : State) : ModeEnd .cbcdec s (prologue .cbcdec cbcdecBody s) := prologue_end fun h => by
  unfold cbcdecBody
  split
  · exact .inr (.inr ⟨h, by decide, [], rfl⟩)
  · rcases stripToOutput_cases (joinBlocks (cbcDecChain (expand s.KEYBUF) s.IVBUF (blocksOf (message s))))
      (State.ranBlocks ((blocksOf (message s)).map (fun c => decblock c (expand s.KEYBUF))) s.expandKey) with ⟨q, hq, he⟩ | he
    · refine .inr (.inl ⟨h, _, q, ?_, he⟩)
      rw [joinBlocks_length, cbcDecChain_length, blocksOf_length, message_length] at hq
      omega
    · exact .inr (.inr ⟨h, by decide, _, he⟩)

theorem ctrxor_end (s : State) : ModeEnd .ctrxor s (prologue .ctrxor ctrxorBody s) := prologue_end fun h =>
  .inr (.inl ⟨h, (List.range ((s.ILEN.toNat + 15) / 16)).map (keystreamBlock s.expandKey),
    List.zipWith (· ^^^ ·) (message s) (joinBlocks ((List.range ((s.ILEN.toNat + 15) / 16)).map (keystreamBlock s.expandKey))),
    by rw [List.length_zipWith, message_length]; omega, rfl⟩)

theorem ctredit_end (s : State) : ModeEnd .ctredit s (prologue .ctredit ctreditBody s) := prologue_end fun h =>
  .inr (.inl ⟨h, (editBlocks s).map (keystreamBlock s.expandKey),
    spliceEdit s.expandKey (s.XOFF.toNat / 16) (joinBlocks ((editBlocks s).map (keystreamBlock s.expandKey))),
    by simp [spliceEdit], rfl⟩)

/-- However a mode command ends, it leaves the host's registers and arrays, WA, RES and the bus as they were. -/
theorem modeEnd_frame {M : Mode} {s t : State} (h : ModeEnd M s t) :
    t = { s with S := t.S, RK := t.RK, RKV := t.RKV, OBUF := t.OBUF, OLEN := t.OLEN, ERR := t.ERR } := by
  rcases h with ⟨_, rfl⟩ | ⟨_, outs, r, _, rfl⟩ | ⟨_, _, outs, rfl⟩ <;> rfl

end Sys2Proof.Machine
end

