-- ==== Sys2Proof/Laws/PerInstr.lean ====
section
/-! SUPPORT. Laws/PerInstr.lean: a statement made of every command, one lemma per constructor of Instr. -/

namespace Sys2Proof.Laws

/-- The fields of a command's word: Z is zero, OP is that of a row of the opcode table, the row's must-be-zero operand
fields are zero, and the row's command for the word's operand fields is the command itself (rules R90, R91, R94). -/
def EncodingFields.Statement (i : Instr) : Prop :=
  zField (encode i) = 0#8 ∧ ∃ row ∈ opcodeRows, row.op = opField (encode i) ∧ row.fmt.admits (encode i) = true ∧
    row.build (aField (encode i)) (bField (encode i)) = i

/-- A command has the fields of the row its word is packed from. -/
theorem encodingFields_of_row {i : Instr} {row : OpcodeRow} {a b : Byte} (hm : row ∈ opcodeRows)
    (he : encode i = packWord row.op a b) (ha : row.fmt.admits (packWord row.op a b) = true) (hb : row.build a b = i) :
    EncodingFields.Statement i := by
  unfold EncodingFields.Statement
  rw [he]
  exact ⟨zField_packWord _ _ _, row, hm, (opField_packWord _ _ _).symm, ha, by rw [aField_packWord, bField_packWord, hb]⟩

/-- Row `k` of the opcode table. -/
theorem opcodeRows_mem {k : Nat} (h : k < 27) : opcodeRows[k]'h ∈ opcodeRows := List.getElem_mem _

/-- A word of format A packed with B = 0 has its must-be-zero field zero. -/
theorem formatA_admits (op a : Byte) : Format.A.admits (packWord op a 0#8) = true := by
  simp [Format.admits]

theorem EncodingFields.nop : EncodingFields.Statement .nop :=
  encodingFields_of_row (a := 0#8) (b := 0#8) (opcodeRows_mem (k := 0) (by decide)) rfl rfl rfl
theorem EncodingFields.clear : EncodingFields.Statement .clear :=
  encodingFields_of_row (a := 0#8) (b := 0#8) (opcodeRows_mem (k := 1) (by decide)) rfl rfl rfl
theorem EncodingFields.gfmul (a b : Byte) : EncodingFields.Statement (.gfmul a b) :=
  encodingFields_of_row (a := a) (b := b) (opcodeRows_mem (k := 2) (by decide)) rfl rfl rfl
theorem EncodingFields.sbox (a : Byte) : EncodingFields.Statement (.sbox a) :=
  encodingFields_of_row (a := a) (b := 0#8) (opcodeRows_mem (k := 3) (by decide)) rfl (formatA_admits _ a) rfl
theorem EncodingFields.isbox (a : Byte) : EncodingFields.Statement (.isbox a) :=
  encodingFields_of_row (a := a) (b := 0#8) (opcodeRows_mem (k := 4) (by decide)) rfl (formatA_admits _ a) rfl
theorem EncodingFields.wxor : EncodingFields.Statement .wxor :=
  encodingFields_of_row (a := 0#8) (b := 0#8) (opcodeRows_mem (k := 5) (by decide)) rfl rfl rfl
theorem EncodingFields.rotword : EncodingFields.Statement .rotword :=
  encodingFields_of_row (a := 0#8) (b := 0#8) (opcodeRows_mem (k := 6) (by decide)) rfl rfl rfl
theorem EncodingFields.subword : EncodingFields.Statement .subword :=
  encodingFields_of_row (a := 0#8) (b := 0#8) (opcodeRows_mem (k := 7) (by decide)) rfl rfl rfl
theorem EncodingFields.rcon (a : Byte) : EncodingFields.Statement (.rcon a) :=
  encodingFields_of_row (a := a) (b := 0#8) (opcodeRows_mem (k := 8) (by decide)) rfl (formatA_admits _ a) rfl
theorem EncodingFields.keyexpand : EncodingFields.Statement .keyexpand :=
  encodingFields_of_row (a := 0#8) (b := 0#8) (opcodeRows_mem (k := 9) (by decide)) rfl rfl rfl
theorem EncodingFields.addroundkey (a : Byte) : EncodingFields.Statement (.addroundkey a) :=
  encodingFields_of_row (a := a) (b := 0#8) (opcodeRows_mem (k := 10) (by decide)) rfl (formatA_admits _ a) rfl
theorem EncodingFields.subbytes : EncodingFields.Statement .subbytes :=
  encodingFields_of_row (a := 0#8) (b := 0#8) (opcodeRows_mem (k := 11) (by decide)) rfl rfl rfl
theorem EncodingFields.invsubbytes : EncodingFields.Statement .invsubbytes :=
  encodingFields_of_row (a := 0#8) (b := 0#8) (opcodeRows_mem (k := 12) (by decide)) rfl rfl rfl
theorem EncodingFields.shiftrows : EncodingFields.Statement .shiftrows :=
  encodingFields_of_row (a := 0#8) (b := 0#8) (opcodeRows_mem (k := 13) (by decide)) rfl rfl rfl
theorem EncodingFields.invshiftrows : EncodingFields.Statement .invshiftrows :=
  encodingFields_of_row (a := 0#8) (b := 0#8) (opcodeRows_mem (k := 14) (by decide)) rfl rfl rfl
theorem EncodingFields.mixcolumns : EncodingFields.Statement .mixcolumns :=
  encodingFields_of_row (a := 0#8) (b := 0#8) (opcodeRows_mem (k := 15) (by decide)) rfl rfl rfl
theorem EncodingFields.invmixcolumns : EncodingFields.Statement .invmixcolumns :=
  encodingFields_of_row (a := 0#8) (b := 0#8) (opcodeRows_mem (k := 16) (by decide)) rfl rfl rfl
theorem EncodingFields.encblock : EncodingFields.Statement .encblock :=
  encodingFields_of_row (a := 0#8) (b := 0#8) (opcodeRows_mem (k := 17) (by decide)) rfl rfl rfl
theorem EncodingFields.decblock : EncodingFields.Statement .decblock :=
  encodingFields_of_row (a := 0#8) (b := 0#8) (opcodeRows_mem (k := 18) (by decide)) rfl rfl rfl
theorem EncodingFields.pad : EncodingFields.Statement .pad :=
  encodingFields_of_row (a := 0#8) (b := 0#8) (opcodeRows_mem (k := 19) (by decide)) rfl rfl rfl
theorem EncodingFields.strip : EncodingFields.Statement .strip :=
  encodingFields_of_row (a := 0#8) (b := 0#8) (opcodeRows_mem (k := 20) (by decide)) rfl rfl rfl
theorem EncodingFields.ecbenc : EncodingFields.Statement .ecbenc :=
  encodingFields_of_row (a := 0#8) (b := 0#8) (opcodeRows_mem (k := 21) (by decide)) rfl rfl rfl
theorem EncodingFields.ecbdec : EncodingFields.Statement .ecbdec :=
  encodingFields_of_row (a := 0#8) (b := 0#8) (opcodeRows_mem (k := 22) (by decide)) rfl rfl rfl
theorem EncodingFields.cbcenc : EncodingFields.Statement .cbcenc :=
  encodingFields_of_row (a := 0#8) (b := 0#8) (opcodeRows_mem (k := 23) (by decide)) rfl rfl rfl
theorem EncodingFields.cbcdec : EncodingFields.Statement .cbcdec :=
  encodingFields_of_row (a := 0#8) (b := 0#8) (opcodeRows_mem (k := 24) (by decide)) rfl rfl rfl
theorem EncodingFields.ctrxor : EncodingFields.Statement .ctrxor :=
  encodingFields_of_row (a := 0#8) (b := 0#8) (opcodeRows_mem (k := 25) (by decide)) rfl rfl rfl
theorem EncodingFields.ctredit : EncodingFields.Statement .ctredit :=
  encodingFields_of_row (a := 0#8) (b := 0#8) (opcodeRows_mem (k := 26) (by decide)) rfl rfl rfl

end Sys2Proof.Laws
end

