-- ==== Sys2Proof/Laws/Window.lean ====
section
/-! SUPPORT. Laws/Window.lean: which accesses the window admits (20_memory.md rules R60 to R66, R70). -/

namespace Sys2Proof.Machine

theorem windowOffset_base (p : Params) {off : Nat} (h : off < windowSize) : windowOffset p (p.BASE + off) = some off := by
  simp [windowOffset, h]

theorem regAt_offset (r : Reg) : regAt r.offset = some r := by cases r <;> rfl

theorem regOffset_lt (r : Reg) : r.offset < windowSize := by cases r <;> decide

/-- A 32-bit access at a register's offset is admitted to that register. -/
theorem admit_reg (p : Params) (r : Reg) : admitted p (p.BASE + r.offset) 4 = some (.reg r) := by
  simp [admitted, windowOffset_base p (regOffset_lt r), regAt_offset]

/-- A search finds the one element of a list that meets the test. -/
theorem find?_eq_of_unique {α : Type} {l : List α} {q : α → Bool} {a : α} (hm : a ∈ l) (ha : q a = true)
    (hu : ∀ b ∈ l, q b = true → b = a) : l.find? q = some a := by
  cases hf : l.find? q with
  | none => exact absurd ha (by simpa using List.find?_eq_none.mp hf a hm)
  | some b => rw [hu b (List.mem_of_find?_eq_some hf) (List.find?_some hf)]

/-- The array an offset lies in; the large buffers need a legal capacity, or they would overlap. -/
theorem arrAt_of_lt (p : Params) (A : Arr) {i : Nat} (h : i < A.size p)
    (hp : p.Legal ∨ A ∉ [Arr.IBUF, .OBUF, .XBUF]) : arrAt p (A.offset + i) = some (A, i) := by
  have key : Arr.all.find? (fun B => decide (B.offset ≤ A.offset + i) && decide (A.offset + i < B.offset + B.size p)) =
      some A := by
    apply find?_eq_of_unique
    · cases A <;> simp [Arr.all]
    · simp [h]
    · intro B _ hB
      simp only [Bool.and_eq_true, decide_eq_true_eq] at hB
      cases A <;> simp only [Arr.size] at h <;>
        simp only [List.mem_cons, List.not_mem_nil, or_false, reduceCtorEq, not_true_eq_false, not_false_eq_true, or_true] at hp <;>
        cases B <;> simp only [Arr.offset, Arr.size] at hB <;> first | rfl | omega
  rw [arrAt, key]
  simp

theorem arrOffset_lt (p : Params) (A : Arr) {i : Nat} (h : i < A.size p) (hp : p.Legal ∨ A ∉ [Arr.IBUF, .OBUF, .XBUF]) :
    A.offset + i < windowSize := by
  cases A <;> simp only [Arr.size] at h <;>
    simp only [List.mem_cons, List.not_mem_nil, or_false, reduceCtorEq, not_true_eq_false, or_true] at hp <;>
    simp only [Arr.offset, windowSize] <;> omega

/-- A byte access at byte `i` of an array is admitted to it. -/
theorem admit_byte (p : Params) (A : Arr) {i : Nat} (h : i < A.size p)
    (hp : p.Legal ∨ A ∉ [Arr.IBUF, .OBUF, .XBUF]) : admitted p (p.BASE + A.offset + i) 1 = some (.byte A i) := by
  rw [admitted, Nat.add_assoc, windowOffset_base p (arrOffset_lt p A h hp)]
  simp [arrAt_of_lt p A h hp]

/-- The only accesses admitted: a register at its offset by 32 bits, an array byte inside the array by one byte. -/
theorem admit_cases {p : Params} {addr n : Nat} {l : Loc} (h : admitted p addr n = some l) :
    (∃ r : Reg, l = .reg r ∧ n = 4 ∧ addr = p.BASE + r.offset) ∨
    (∃ (A : Arr) (i : Nat), l = .byte A i ∧ n = 1 ∧ i < A.size p ∧ addr = p.BASE + A.offset + i) := by
  unfold admitted windowOffset at h
  split at h
  · exact absurd h (by simp)
  · rename_i off ho
    split at ho <;> [skip; exact absurd ho (by simp)]
    rename_i hb
    injection ho with ho
    split_ifs at h with h4 h1
    · obtain ⟨r, hr, rfl⟩ := Option.map_eq_some_iff.mp h
      refine .inl ⟨r, rfl, h4, ?_⟩
      have := List.find?_some hr
      simp only [beq_iff_eq] at this
      omega
    · obtain ⟨⟨A, i⟩, hr, rfl⟩ := Option.map_eq_some_iff.mp h
      obtain ⟨B, hB, hBe⟩ := Option.map_eq_some_iff.mp hr
      have := List.find?_some hB
      simp only [Bool.and_eq_true, decide_eq_true_eq] at this
      injection hBe with h5 h6
      subst h5
      exact .inr ⟨B, i, rfl, h1, by omega, by omega⟩

end Sys2Proof.Machine
end

