-- ==== Sys2Proof/Tests/Slice0.lean ====
section
/-! SUPPORT. Tests/Slice0.lean: the model's own tests. Words are written out from the encodings of 30_encoding.md; expected
results are the worked examples and vectors of the spec (each test names its place). The witnesses at the end meet the
hypotheses of the statements. -/

namespace Sys2Proof.Tests

open Sys2Proof Sys2Proof.Machine

/-! ### WellFormed: an ill-formed term for each check (rule R92) -/

theorem test_wf_refuses_rcon_0 : (Instr.rcon 0).wf = false := by decide
theorem test_wf_refuses_rcon_11 : (Instr.rcon 11).wf = false := by decide
theorem test_wf_refuses_addroundkey_11 : (Instr.addroundkey 11).wf = false := by decide
theorem test_wf_admits_bounds : (Instr.rcon 1).wf = true ∧ (Instr.rcon 10).wf = true ∧ (Instr.addroundkey 0).wf = true ∧
    (Instr.addroundkey 10).wf = true := by decide

/-! ### Decoding: OP in bits 7:0, A in bits 15:8, B in bits 23:16, Z zero (rules R90, R94) -/

theorem test_decode_system :
    decode 0x00000000#32 = .ok .nop ∧
    decode 0x00000001#32 = .ok .clear := by decide

theorem test_decode_field_unit :
    decode 0x003CA510#32 = .ok (.gfmul 0xA5 0x3C) ∧
    decode 0x0000A511#32 = .ok (.sbox 0xA5) ∧
    decode 0x0000A512#32 = .ok (.isbox 0xA5) := by decide

theorem test_decode_word_unit :
    decode 0x00000020#32 = .ok .wxor ∧
    decode 0x00000021#32 = .ok .rotword ∧
    decode 0x00000022#32 = .ok .subword ∧
    decode 0x00000A23#32 = .ok (.rcon 10) ∧
    decode 0x00000024#32 = .ok .keyexpand := by decide

theorem test_decode_round_primitives :
    decode 0x00000A30#32 = .ok (.addroundkey 10) ∧
    decode 0x00000031#32 = .ok .subbytes ∧
    decode 0x00000032#32 = .ok .invsubbytes ∧
    decode 0x00000033#32 = .ok .shiftrows ∧
    decode 0x00000034#32 = .ok .invshiftrows ∧
    decode 0x00000035#32 = .ok .mixcolumns ∧
    decode 0x00000036#32 = .ok .invmixcolumns := by decide

theorem test_decode_block_cipher :
    decode 0x00000040#32 = .ok .encblock ∧
    decode 0x00000041#32 = .ok .decblock := by decide

theorem test_decode_padding_unit :
    decode 0x00000050#32 = .ok .pad ∧
    decode 0x00000051#32 = .ok .strip := by decide

theorem test_decode_mode_controller :
    decode 0x00000060#32 = .ok .ecbenc ∧
    decode 0x00000061#32 = .ok .ecbdec ∧
    decode 0x00000062#32 = .ok .cbcenc ∧
    decode 0x00000063#32 = .ok .cbcdec ∧
    decode 0x00000064#32 = .ok .ctrxor ∧
    decode 0x00000065#32 = .ok .ctredit := by decide

/-- The illegal words of 95_test_vectors.md D-ENC. -/
theorem test_decode_rejects :
    decode 0x00000002#32 = .error .unknownOpcode ∧ decode 0x00000100#32 = .error .operandFieldNonzero ∧
    decode 0x01000000#32 = .error .zFieldNonzero ∧ decode 0xFFFFFF10#32 = .error .zFieldNonzero ∧
    decode 0x00015311#32 = .error .operandFieldNonzero ∧ decode 0x00000B30#32 = .error .operandOutOfRange ∧
    decode 0x00000023#32 = .error .operandOutOfRange ∧ decode 0x00000066#32 = .error .unknownOpcode ∧
    decode 0x000000FF#32 = .error .unknownOpcode := by decide

/-- The host's question about a table row. -/
theorem test_decodeTableWord : decodeTableWord 32 0x00135710 = some (.gfmul 0x57 0x13) ∧
    decodeTableWord 32 0x00000B30 = none := by decide

/-! ### One step each -/

/-- The state after one step that runs the command word `w` from `s`. -/
def after (s : State) (w : Nat) : State :=
  match step (s.withFetchWord 32 w) with
  | .next t => t
  | .fault _ => s
  | .refused _ => s

/-- The key "YELLOW SUBMARINE" declared and loaded, IV and nonce of zeros declared (95_test_vectors.md S8, D-ECB). -/
def yellow : State :=
  { State.reset with
    KEYBUF := #v[0x59, 0x45, 0x4c, 0x4c, 0x4f, 0x57, 0x20, 0x53, 0x55, 0x42, 0x4d, 0x41, 0x52, 0x49, 0x4e, 0x45]
    KLEN := 16, IVLEN := 16, NLEN := 8 }

/-- A state with a message. -/
def withMessage (s : State) (m : List Byte) : State :=
  { s with IBUF := Memory.writeBytes [] 0 m, ILEN := BitVec.ofNat 32 m.length }

/-- Outcome, output length and output bytes. -/
def output (s : State) : Err × Nat × List Byte := (s.ERR, s.OLEN.toNat, Memory.readBytes s.OBUF s.OLEN.toNat)

/-- A state with S given. -/
def withS (s : Block) : State := { State.reset with S := s }

/-- A state with WA and WB given. -/
def withWords (a b : Word) : State := { State.reset with WA := a, WB := b }

/-- NOP clears ERR and nothing else (rule R210). -/
theorem test_nop : after { State.reset with ERR := .rangeError } 0x00000000 = State.reply .done State.reset :=
  rfl

/-- CLEAR (rule R211), also from a state with a message and an error. -/
theorem test_clear : after { withMessage yellow [1, 2, 3] with ERR := .paddingError, OLEN := 7 } 0x00000001 =
    State.reply .done State.reset := rfl

/-- D-GF and rule R111's worked example. -/
theorem test_gfmul : (after State.reset 0x00835710).readReg .RES = 0x000000C1#32 ∧
    (after State.reset 0x00135710).RES = 0xFE#8 := by decide +kernel

/-- D-SB. -/
theorem test_sbox : (after State.reset 0x0000FF11).RES = 0x16#8 ∧ (after State.reset 0x00005311).RES = 0xED#8 := by decide +kernel

/-- Rule R115's worked example, and D-SB. -/
theorem test_isbox : (after State.reset 0x0000ED12).RES = 0x53#8 ∧ (after State.reset 0x00007C12).RES = 0x01#8 := by decide +kernel

/-- D-W, rows 3 and 4. -/
theorem test_wxor : (after (withWords #v[0x8a, 0x84, 0xeb, 0x01] #v[0x01, 0x00, 0x00, 0x00]) 0x00000020).WA = #v[0x8b, 0x84, 0xeb, 0x01] ∧
    (after (withWords #v[0x8b, 0x84, 0xeb, 0x01] #v[0x2b, 0x7e, 0x15, 0x16]) 0x00000020).WA = #v[0xa0, 0xfa, 0xfe, 0x17] := by decide +kernel

/-- D-W, row 1. -/
theorem test_rotword : (after (withWords #v[0x09, 0xcf, 0x4f, 0x3c] (zeros 4)) 0x00000021).WA = #v[0xcf, 0x4f, 0x3c, 0x09] := by decide +kernel

/-- D-W, rows 2 and 5. -/
theorem test_subword : (after (withWords #v[0xcf, 0x4f, 0x3c, 0x09] (zeros 4)) 0x00000022).WA = #v[0x8a, 0x84, 0xeb, 0x01] ∧
    (after (withWords #v[0x00, 0x53, 0xff, 0x52] (zeros 4)) 0x00000022).WA = #v[0x63, 0xed, 0x16, 0x00] := by decide +kernel

/-- D-W, rows 7 and 8. -/
theorem test_rcon : (after State.reset 0x00000923).WA = #v[0x1b, 0x00, 0x00, 0x00] ∧
    (after State.reset 0x00000A23).WA = #v[0x36, 0x00, 0x00, 0x00] := by decide +kernel

/-- D-W, rows 9 and 10: WA unchanged. -/
theorem test_rcon_out_of_range : (after (withWords #v[0x01, 0x02, 0x03, 0x04] (zeros 4)) 0x00000023).WA = #v[0x01, 0x02, 0x03, 0x04] ∧
    (after State.reset 0x00000023).ERR = .illegalCommand ∧ (after State.reset 0x00000B23).ERR = .illegalCommand := by decide +kernel

/-- D-KS2, row 3: RK[16..32) and RK[160..176). -/
theorem test_keyexpand : (after yellow 0x00000024).RKV = true ∧
    roundKey (after yellow 0x00000024).RK 1 = #v[0x63, 0x6a, 0x22, 0x4c, 0x2c, 0x3d, 0x02, 0x1f, 0x79, 0x7f, 0x4f, 0x5e, 0x2b, 0x36, 0x01, 0x1b] ∧
    roundKey (after yellow 0x00000024).RK 10 = #v[0x47, 0x70, 0x44, 0x9f, 0x38, 0xd7, 0x18, 0x3d, 0xcc, 0xbc, 0x7b, 0x7d, 0x4b, 0x38, 0xe4, 0xea] := by decide +kernel

/-- D-KS2, the rows of lengths 15 and 17. -/
theorem test_keyexpand_length : (after { yellow with KLEN := 15 } 0x00000024).ERR = .invalidKeyLength ∧
    (after { yellow with KLEN := 17 } 0x00000024).RKV = false := by decide +kernel

/-- Rule R141's worked example: round key 0 is the key itself. -/
theorem test_addroundkey : (after { withS #v[0x00, 0x11, 0x22, 0x33, 0x44, 0x55, 0x66, 0x77, 0x88, 0x99, 0xaa, 0xbb, 0xcc, 0xdd, 0xee, 0xff] with
      RKV := true, RK := Vector.ofFn fun i => BitVec.ofNat 8 (i.val % 16) } 0x00000030).S =
    #v[0x00, 0x10, 0x20, 0x30, 0x40, 0x50, 0x60, 0x70, 0x80, 0x90, 0xa0, 0xb0, 0xc0, 0xd0, 0xe0, 0xf0] := by decide +kernel

/-- D-RND: NoKey, S unchanged. -/
theorem test_addroundkey_no_key : (after (withS #v[0x00, 0x11, 0x22, 0x33, 0x44, 0x55, 0x66, 0x77, 0x88, 0x99, 0xaa, 0xbb, 0xcc, 0xdd, 0xee, 0xff]) 0x00000030).S = #v[0x00, 0x11, 0x22, 0x33, 0x44, 0x55, 0x66, 0x77, 0x88, 0x99, 0xaa, 0xbb, 0xcc, 0xdd, 0xee, 0xff] ∧
    (after State.reset 0x00000030).ERR = .noKey := by decide +kernel

/-- S2, round 1. -/
theorem test_subbytes : (after (withS #v[0x00, 0x10, 0x20, 0x30, 0x40, 0x50, 0x60, 0x70, 0x80, 0x90, 0xa0, 0xb0, 0xc0, 0xd0, 0xe0, 0xf0]) 0x00000031).S =
    #v[0x63, 0xca, 0xb7, 0x04, 0x09, 0x53, 0xd0, 0x51, 0xcd, 0x60, 0xe0, 0xe7, 0xba, 0x70, 0xe1, 0x8c] := by decide +kernel

/-- S2, decryption round 9. -/
theorem test_invsubbytes : (after (withS #v[0x7a, 0x9f, 0x10, 0x27, 0x89, 0xd5, 0xf5, 0x0b, 0x2b, 0xef, 0xfd, 0x9f, 0x3d, 0xca, 0x4e, 0xa7]) 0x00000032).S =
    #v[0xbd, 0x6e, 0x7c, 0x3d, 0xf2, 0xb5, 0x77, 0x9e, 0x0b, 0x61, 0x21, 0x6e, 0x8b, 0x10, 0xb6, 0x89] := by decide +kernel

/-- D-RND. -/
theorem test_shiftrows : (after (withS #v[0x00, 0x01, 0x02, 0x03, 0x04, 0x05, 0x06, 0x07, 0x08, 0x09, 0x0a, 0x0b, 0x0c, 0x0d, 0x0e, 0x0f]) 0x00000033).S =
    #v[0x00, 0x05, 0x0a, 0x0f, 0x04, 0x09, 0x0e, 0x03, 0x08, 0x0d, 0x02, 0x07, 0x0c, 0x01, 0x06, 0x0b] := by decide +kernel

/-- D-RND. -/
theorem test_invshiftrows : (after (withS #v[0x00, 0x01, 0x02, 0x03, 0x04, 0x05, 0x06, 0x07, 0x08, 0x09, 0x0a, 0x0b, 0x0c, 0x0d, 0x0e, 0x0f]) 0x00000034).S =
    #v[0x00, 0x0d, 0x0a, 0x07, 0x04, 0x01, 0x0e, 0x0b, 0x08, 0x05, 0x02, 0x0f, 0x0c, 0x09, 0x06, 0x03] := by decide +kernel

/-- D-RND. -/
theorem test_mixcolumns : (after (withS #v[0xdb, 0x13, 0x53, 0x45, 0x01, 0x01, 0x01, 0x01, 0xc6, 0xc6, 0xc6, 0xc6, 0xd4, 0xd4, 0xd4, 0xd5]) 0x00000035).S =
    #v[0x8e, 0x4d, 0xa1, 0xbc, 0x01, 0x01, 0x01, 0x01, 0xc6, 0xc6, 0xc6, 0xc6, 0xd5, 0xd5, 0xd7, 0xd6] := by decide +kernel

/-- S2, decryption round 9. -/
theorem test_invmixcolumns : (after (withS #v[0xe9, 0xf7, 0x4e, 0xec, 0x02, 0x30, 0x20, 0xf6, 0x1b, 0xf2, 0xcc, 0xf2, 0x35, 0x3c, 0x21, 0xc7]) 0x00000036).S =
    #v[0x54, 0xd9, 0x90, 0xa1, 0x6b, 0xa0, 0x9a, 0xb5, 0x96, 0xbb, 0xf4, 0x0e, 0xa1, 0x11, 0x70, 0x2f] := by decide +kernel

/-- D-BLK, row 4, with RK expanded. -/
theorem test_encblock : (after { yellow with RK := expand yellow.KEYBUF, RKV := true, S := #v[0x10, 0x10, 0x10, 0x10, 0x10, 0x10, 0x10, 0x10, 0x10, 0x10, 0x10, 0x10, 0x10, 0x10, 0x10, 0x10] } 0x00000040).S =
    #v[0x60, 0xfa, 0x36, 0x70, 0x7e, 0x45, 0xf4, 0x99, 0xdb, 0xa0, 0xf2, 0x5b, 0x92, 0x23, 0x01, 0xa5] := by decide +kernel

/-- D-BLK, row 5. -/
theorem test_decblock : (after { yellow with RK := expand yellow.KEYBUF, RKV := true } 0x00000041).S =
    #v[0x6d, 0xf0, 0x67, 0xa4, 0x81, 0x74, 0x79, 0xac, 0xaf, 0xb3, 0x2a, 0x51, 0xe1, 0x0e, 0xc4, 0x42] := by decide +kernel

/-- D-PAD, row 2. -/
theorem test_pad : output (after (withMessage State.reset [0x61, 0x62, 0x63]) 0x00000050) =
    (.ok, 16, [0x61, 0x62, 0x63, 0x0d, 0x0d, 0x0d, 0x0d, 0x0d, 0x0d, 0x0d, 0x0d, 0x0d, 0x0d, 0x0d, 0x0d, 0x0d]) := by decide +kernel

/-- S4: a message of a whole block gets a block of padding. -/
theorem test_pad_whole_block : output (after (withMessage State.reset [0x59, 0x45, 0x4c, 0x4c, 0x4f, 0x57, 0x20, 0x53, 0x55, 0x42, 0x4d, 0x41, 0x52, 0x49, 0x4e, 0x45]) 0x00000050) =
    (.ok, 32, [0x59, 0x45, 0x4c, 0x4c, 0x4f, 0x57, 0x20, 0x53, 0x55, 0x42, 0x4d, 0x41, 0x52, 0x49, 0x4e, 0x45, 0x10, 0x10, 0x10, 0x10, 0x10, 0x10, 0x10, 0x10, 0x10, 0x10, 0x10, 0x10, 0x10, 0x10, 0x10, 0x10]) := by decide +kernel

/-- S5, row 3, and D-STRIP's row of one byte 01. -/
theorem test_strip : output (after (withMessage State.reset [0xaa, 0xbb, 0xcc, 0xdd, 0x04, 0x04, 0x04, 0x04]) 0x00000051) =
      (.ok, 4, [0xaa, 0xbb, 0xcc, 0xdd]) ∧
    output (after (withMessage State.reset [0x01]) 0x00000051) = (.ok, 0, []) := by decide +kernel

/-- S5, rows 1 and 2, and D-STRIP's row of seventeen bytes 11. -/
theorem test_strip_error : output (after (withMessage State.reset [0x00, 0x01, 0x02, 0x03, 0x01, 0x02, 0x03, 0x04]) 0x00000051) = (.paddingError, 0, []) ∧
    output (after (withMessage State.reset [0xaa, 0xbb, 0x03, 0x03, 0x03, 0x00]) 0x00000051) = (.paddingError, 0, []) ∧
    output (after (withMessage State.reset [0x11, 0x11, 0x11, 0x11, 0x11, 0x11, 0x11, 0x11, 0x11, 0x11, 0x11, 0x11, 0x11, 0x11, 0x11, 0x11, 0x11]) 0x00000051) = (.paddingError, 0, []) := by decide +kernel

/-- D-ECB, row 2. -/
theorem test_ecbenc : output (after (withMessage yellow [0x61, 0x62, 0x63]) 0x00000060) =
    (.ok, 16, [0x48, 0x4f, 0x99, 0x9c, 0x87, 0xa0, 0xb9, 0x20, 0x0c, 0xc1, 0x0b, 0x0a, 0x7f, 0x9a, 0x7b, 0xb8]) := by decide +kernel

/-- D-ECB, the row of fifteen bytes: PaddingError after the key was expanded. -/
theorem test_ecbdec_ragged : (after (withMessage yellow [0x00, 0x00, 0x00, 0x00, 0x00, 0x00, 0x00, 0x00, 0x00, 0x00, 0x00, 0x00, 0x00, 0x00, 0x00]) 0x00000061).ERR = .paddingError ∧
    (after (withMessage yellow [0x00, 0x00, 0x00, 0x00, 0x00, 0x00, 0x00, 0x00, 0x00, 0x00, 0x00, 0x00, 0x00, 0x00, 0x00]) 0x00000061).RKV = true := by decide +kernel

/-- D-CBC, row 4. -/
theorem test_cbcenc_iv_length : (after { yellow with IVLEN := 8 } 0x00000062).ERR = .invalidIvOrNonceLength ∧
    (after { yellow with IVLEN := 8 } 0x00000062).RKV = false := by decide +kernel

/-- D-ERR: the checks in their order. -/
theorem test_cbcdec_order : (after State.reset 0x00000063).ERR = .invalidKeyLength ∧
    (after { State.reset with KLEN := 16 } 0x00000063).ERR = .invalidIvOrNonceLength ∧
    (after { State.reset with KLEN := 16, IVLEN := 16, ILEN := 5 } 0x00000063).ERR = .paddingError ∧
    (after { State.reset with KLEN := 16, IVLEN := 16, ILEN := 0xFFFFFFFF } 0x00000063).ERR = .rangeError := by decide +kernel

/-- D-CTR, the counter blocks of index 1 in both byte orders. -/
theorem test_ctrblock : ctrblock false #v[0x01, 0x02, 0x03, 0x04, 0x05, 0x06, 0x07, 0x08] 1 = #v[0x01, 0x02, 0x03, 0x04, 0x05, 0x06, 0x07, 0x08, 0x01, 0x00, 0x00, 0x00, 0x00, 0x00, 0x00, 0x00] ∧
    ctrblock true #v[0x01, 0x02, 0x03, 0x04, 0x05, 0x06, 0x07, 0x08] 1 = #v[0x01, 0x02, 0x03, 0x04, 0x05, 0x06, 0x07, 0x08, 0x00, 0x00, 0x00, 0x00, 0x00, 0x00, 0x00, 0x01] := by decide +kernel

/-- D-CTR2, cut to 3 bytes. -/
theorem test_ctrxor : output (after (withMessage { yellow with NBUF := #v[0x01, 0x02, 0x03, 0x04, 0x05, 0x06, 0x07, 0x08] } [0x00, 0x01, 0x02]) 0x00000064) =
    (.ok, 3, [0xf0, 0xea, 0x0f]) := by decide +kernel

/-- D-CTR, the empty message: S unchanged, the key expanded. -/
theorem test_ctrxor_empty : (after yellow 0x00000064).OLEN = 0 ∧ (after yellow 0x00000064).S = zeros 16 ∧ (after yellow 0x00000064).RKV = true := by decide +kernel

/-- D-CTR, XLEN = 0: the message is copied and S is unchanged. -/
theorem test_ctredit_nothing : output (after { withMessage yellow [0x2f, 0xbe, 0xe7] with XOFF := 3 } 0x00000065) = (.ok, 3, [0x2f, 0xbe, 0xe7]) ∧
    (after { withMessage yellow [0x2f, 0xbe, 0xe7] with XOFF := 3 } 0x00000065).S = zeros 16 := by decide +kernel

/-- D-CTR, the last two rows: an empty edit beyond the end, and a sum that does not wrap. -/
theorem test_ctredit_range : (after { yellow with ILEN := 36, XOFF := 37 } 0x00000065).ERR = .rangeError ∧
    (after { yellow with ILEN := 36, XOFF := 0xFFFFFFFF, XLEN := 2 } 0x00000065).ERR = .rangeError := by decide +kernel

/-! ### Witnesses: states and operands that meet the hypotheses of the statements, clause by clause -/

/-- The invariant of a state with a message of at most 4096 bytes and nothing else loaded. -/
theorem inv_of_message {s : State} (hp : s.params = Params.default) (hi : Memory.Canonical s.IBUF)
    (hw : Memory.Within s.IBUF 4096) (ho : s.OBUF = []) (hx : s.XBUF = []) (hk : s.RKV = false) (hl : s.OLEN = 0) : s.Inv where
  paramsLegal := by rw [hp]; decide
  ibufCanonical := hi
  obufCanonical := by rw [ho]; decide
  xbufCanonical := by rw [hx]; decide
  ibufWithin := by rw [hp]; exact hw
  obufWithin := by rw [ho]; exact fun _ h => absurd h (by simp)
  xbufWithin := by rw [hx]; exact fun _ h => absurd h (by simp)
  keyValid := fun h => by rw [hk] at h; cases h
  olenBounded := by rw [hl]; simp

/-- All lengths declared, no message. -/
def declared : State := { State.reset with KLEN := 16, IVLEN := 16, NLEN := 8 }

/-- All lengths declared, a message of `n` zero bytes. -/
def messageOf (n : Nat) : State := { declared with ILEN := BitVec.ofNat 32 n }

theorem messageOf_inv (n : Nat) : (messageOf n).Inv :=
  inv_of_message rfl ⟨List.Pairwise.nil, fun _ h => (List.not_mem_nil h).elim⟩ (fun _ h => (List.not_mem_nil h).elim)
    rfl rfl rfl rfl

/-- An edit of `len` bytes at `off` in a message of 36 bytes. -/
def editOf (off len : Nat) : State := { messageOf 36 with XOFF := BitVec.ofNat 32 off, XLEN := BitVec.ofNat 32 len }

theorem editOf_inv (off len : Nat) : (editOf off len).Inv :=
  (fun h => ⟨h.1, h.2, h.3, h.4, h.5, h.6, h.7, h.8, h.9⟩) (messageOf_inv 36)

theorem witness_DecodeOfEncode : (Instr.rcon 10).wf = true ∧ (Instr.addroundkey 10).wf = true := by decide

theorem witness_EncodeOfDecode : decode 0x00000A30#32 = .ok (.addroundkey 10) := by decide

/-- One word for each of the six ways to be illegal, the two bounds of RCON among them. -/
theorem witness_IllegalWordRaisesIllegalCommand :
    (0x01000000#32).extractLsb' 24 8 ≠ 0#8 ∧
    (0x00000066#32).extractLsb' 0 8 ∉ [0x00#8, 0x01#8, 0x10#8, 0x11#8, 0x12#8, 0x20#8, 0x21#8, 0x22#8, 0x23#8, 0x24#8,
      0x30#8, 0x31#8, 0x32#8, 0x33#8, 0x34#8, 0x35#8, 0x36#8, 0x40#8, 0x41#8, 0x50#8, 0x51#8,
      0x60#8, 0x61#8, 0x62#8, 0x63#8, 0x64#8, 0x65#8] ∧
    ((0x00000131#32).extractLsb' 8 8 ≠ 0#8 ∧ (0x00000131#32).extractLsb' 0 8 ∉ [0x10#8, 0x11#8, 0x12#8, 0x23#8, 0x30#8]) ∧
    ((0x00010011#32).extractLsb' 16 8 ≠ 0#8 ∧ (0x00010011#32).extractLsb' 0 8 ≠ 0x10#8) ∧
    ((0x00000023#32).extractLsb' 0 8 = 0x23#8 ∧ ((0x00000023#32).extractLsb' 8 8).toNat = 0) ∧
    ((0x00000B23#32).extractLsb' 0 8 = 0x23#8 ∧ 11 ≤ ((0x00000B23#32).extractLsb' 8 8).toNat) ∧
    ((0x00000B30#32).extractLsb' 0 8 = 0x30#8 ∧ 11 ≤ ((0x00000B30#32).extractLsb' 8 8).toNat) := by decide

theorem witness_StepRunsDecodedCommand : decode 0x00135710#32 = .ok (.gfmul 0x57 0x13) ∧ State.reset.pending = [] := by decide

theorem witness_RegisterReadsReturnTheirValue :
    ((0x00 : Nat), 0#32) ∈ [((0x00 : Nat), 0#32), (0x04, State.reset.statusWord), (0x08, State.reset.RES.setWidth 32),
      (0x0C, State.reset.KLEN.setWidth 32), (0x10, State.reset.IVLEN.setWidth 32), (0x14, State.reset.NLEN.setWidth 32),
      (0x18, State.reset.ILEN), (0x1C, State.reset.OLEN), (0x20, State.reset.XLEN), (0x24, State.reset.XOFF)] := by decide

/-- The last index of each array. -/
theorem witness_ByteReadsReturnTheirByte : State.reset.params.Legal ∧ (15 < 16) ∧ (3 < 4) ∧ (7 < 8) ∧ (175 < 176) ∧
    4095 < State.reset.params.MSG_CAP ∧ 4111 < State.reset.params.MSG_CAP + 16 := by decide

/-- The two bounds of MSG_CAP. -/
theorem witness_ParamsLegal : ({ Params.default with MSG_CAP := 16 } : Params).Legal ∧
    ({ Params.default with MSG_CAP := 65520 } : Params).Legal := by decide

theorem witness_ByteWritesToSmallArrays : 0 < 16 ∧ 15 < 16 ∧ 3 < 4 ∧ 7 < 8 ∧ 175 < 176 := by decide

theorem witness_ByteWritesToBuffers : (messageOf 0).Inv ∧ 4095 < (messageOf 0).params.MSG_CAP ∧
    4111 < (messageOf 0).params.MSG_CAP + 16 := ⟨messageOf_inv 0, by decide, by decide⟩

/-- A hole between the registers and S, a byte access to a register, a byte just past IBUF, and a width of two bytes; and the
four values of BUS_FAULT_RESPONSE. -/
theorem witness_UnadmittedAccessLeavesEngine :
    Unmapped Params.default 0x28 4 ∧ Unmapped Params.default 0x00 1 ∧ Unmapped Params.default 0x11000 1 ∧
    Unmapped Params.default 0x40 2 ∧
    (∀ r, Unmapped { Params.default with BUS_FAULT_RESPONSE := r } 0x28 4) ∧
    ([BusFaultResponse.refuse, .busError, .zeroData, .hang].map
      (fun r => ({ Params.default with BUS_FAULT_RESPONSE := r } : Params).BUS_FAULT_RESPONSE)) =
      [.refuse, .busError, .zeroData, .hang] := by
  refine ⟨?_, ?_, ?_, ?_, fun r => ?_, rfl⟩ <;> simp [Unmapped, Params.default]

theorem witness_ReadsHaveNoSideEffects : ∃ t, step { State.reset with pending := [.read 0x00020 4] } = .next t := ⟨_, rfl⟩

/-- A step that goes on, one that hangs and one that is refused. -/
theorem witness_BaseAddressIsImmaterial :
    step State.reset = .next State.reset ∧
    step { State.resetWith { Params.default with BUS_FAULT_RESPONSE := .hang } with pending := [.read 0x28 4] } =
      .fault .busHang ∧
    step { State.reset with pending := [.read 0x28 4] } = .refused .accessNotAdmitted := ⟨rfl, rfl, rfl⟩

theorem witness_GfmulFieldLaws : (0x53#8) ≠ 0#8 := by decide

/-- Inverses (D-GF), and the case of 0. -/
theorem witness_SboxIsInverseThenAffine : gfmul 0x53#8 0xCA#8 = 1#8 ∧ (0#8 = 0#8 ∧ 0#8 = (0#8 : Byte)) := by
  decide +kernel

theorem witness_RconWritesConstant : (1 ≤ (1#8).toNat ∧ (1#8).toNat ≤ 10) ∧ (1 ≤ (10#8).toNat ∧ (10#8).toNat ≤ 10) ∧
    ¬(1 ≤ (0#8).toNat ∧ (0#8).toNat ≤ 10) ∧ ¬(1 ≤ (11#8).toNat ∧ (11#8).toNat ≤ 10) := by decide

theorem witness_KeyexpandExpandsKey : declared.KLEN = 16#8 ∧ State.reset.KLEN ≠ 16#8 ∧
    ({ State.reset with KLEN := 17 } : State).KLEN ≠ 16#8 := by decide

theorem witness_ExpandFollowsRecurrence : (3 < 4 ∧ 3 < 4) ∧ (4 ≤ 43 ∧ 43 < 44 ∧ 43 % 4 ≠ 0) ∧ (4 ≤ 4 ∧ 4 < 44 ∧ 4 % 4 = 0) ∧
    (4 ≤ 40 ∧ 40 < 44 ∧ 40 % 4 = 0) := by decide

/-- A state with valid round keys. -/
theorem witness_RkvTrue : (keyed declared).RKV = true ∧ State.reset.RKV = false := ⟨rfl, rfl⟩

theorem witness_AddroundkeyXorsRoundKey : (10#8).toNat ≤ 10 ∧ (0#8).toNat ≤ 10 ∧ 11 ≤ (11#8).toNat ∧
    ({ State.reset with RKV := true } : State).RKV = true ∧ State.reset.RKV = false := by decide

theorem witness_HandEncryptionEqualsEncblock :
    (keyed declared).RKV = true ∧ ∃ t, exec .encblock (keyed declared) = .next t := ⟨rfl, _, rfl⟩

/-- Exactly MSG_CAP bytes, and one more. -/
theorem witness_MessageRange : (messageOf 4096).Inv ∧ (messageOf 4096).ILEN.toNat ≤ (messageOf 4096).params.MSG_CAP ∧
    (messageOf 4097).Inv ∧ (messageOf 4097).params.MSG_CAP < (messageOf 4097).ILEN.toNat ∧
    (messageOf 4096).KLEN = 16#8 ∧ (messageOf 4096).IVLEN = 16#8 ∧ (messageOf 4096).NLEN = 8#8 :=
  ⟨messageOf_inv _, by decide, messageOf_inv _, by decide, by decide, by decide, by decide⟩

/-- PAD and STRIP: the two sides of the range check; STRIP's two sides of valid padding. -/
theorem witness_StripRemovesValidPadding :
    ValidPadding (fun _ => 0x10#8) 16 ∧ ¬ValidPadding (fun _ => 0x11#8) 17 ∧ ¬ValidPadding (fun _ => 0x01#8) 0 := by
  refine ⟨⟨by decide, by decide, by decide, by decide, fun _ _ _ => rfl⟩, fun h => ?_, fun h => absurd h.1 (by decide)⟩
  exact absurd h.2.2.1 (by decide)

/-- A state for each clause of the prologue. -/
theorem witness_PrologueReportsFirstError :
    State.reset.KLEN ≠ 16#8 ∧
    (({ State.reset with KLEN := 16 } : State).KLEN = 16#8 ∧ ({ State.reset with KLEN := 16 } : State).IVLEN ≠ 16#8 ∧
      ({ State.reset with KLEN := 16 } : State).NLEN ≠ 8#8) ∧
    ((messageOf 4097).KLEN = 16#8 ∧ (messageOf 4097).params.MSG_CAP < (messageOf 4097).ILEN.toNat ∧
      (messageOf 4097).IVLEN = 16#8 ∧ (messageOf 4097).NLEN = 8#8) ∧
    ((editOf 37 0).KLEN = 16#8 ∧ (editOf 37 0).NLEN = 8#8 ∧ (editOf 37 0).ILEN.toNat ≤ (editOf 37 0).params.MSG_CAP ∧
      (editOf 37 0).ILEN.toNat < (editOf 37 0).XOFF.toNat + (editOf 37 0).XLEN.toNat) ∧
    ((editOf 0 4097).KLEN = 16#8 ∧ (editOf 0 4097).NLEN = 8#8 ∧
      (editOf 0 4097).ILEN.toNat ≤ (editOf 0 4097).params.MSG_CAP ∧
      (editOf 0 4097).params.MSG_CAP < (editOf 0 4097).XLEN.toNat) := by decide

/-- The empty message, the full buffer. -/
theorem witness_ModeEncryption : (messageOf 0).Inv ∧ (messageOf 0).KLEN = 16#8 ∧ (messageOf 0).IVLEN = 16#8 ∧
    (messageOf 0).NLEN = 8#8 ∧ (messageOf 0).ILEN.toNat ≤ (messageOf 0).params.MSG_CAP ∧ (messageOf 4096).Inv ∧
    (messageOf 4096).ILEN.toNat ≤ (messageOf 4096).params.MSG_CAP :=
  ⟨messageOf_inv _, by decide, by decide, by decide, by decide, messageOf_inv _, by decide⟩

/-- ECBDEC and CBCDEC: no byte, a ragged message, one block. -/
theorem witness_ModeDecryption : (messageOf 0).Inv ∧ (messageOf 0).ILEN.toNat = 0 ∧
    (messageOf 17).Inv ∧ (messageOf 17).ILEN.toNat % 16 ≠ 0 ∧
    (messageOf 16).Inv ∧ (messageOf 16).ILEN.toNat ≠ 0 ∧ (messageOf 16).ILEN.toNat % 16 = 0 ∧
    (messageOf 16).ILEN.toNat ≤ (messageOf 16).params.MSG_CAP ∧ (messageOf 16).KLEN = 16#8 ∧ (messageOf 16).IVLEN = 16#8 :=
  ⟨messageOf_inv _, by decide, messageOf_inv _, by decide, messageOf_inv _, by decide, by decide, by decide, by decide,
    by decide⟩

theorem witness_CounterBlockLayout : 0 < 8 ∧ 7 < 8 := by decide

/-- An edit that ends where the message ends, and an empty one at its end. -/
theorem witness_CtreditSplicesNewBytes :
    (editOf 34 2).Inv ∧ (editOf 34 2).KLEN = 16#8 ∧ (editOf 34 2).NLEN = 8#8 ∧
    (editOf 34 2).ILEN.toNat ≤ (editOf 34 2).params.MSG_CAP ∧ (editOf 34 2).XLEN.toNat ≤ (editOf 34 2).params.MSG_CAP ∧
    (editOf 34 2).XOFF.toNat + (editOf 34 2).XLEN.toNat ≤ (editOf 34 2).ILEN.toNat ∧
    (editOf 36 0).Inv ∧ (editOf 36 0).XOFF.toNat + (editOf 36 0).XLEN.toNat ≤ (editOf 36 0).ILEN.toNat :=
  ⟨editOf_inv _ _, by decide, by decide, by decide, by decide, by decide, editOf_inv _ _, by decide⟩

/-- The state a host makes of `s` by copying the output of `t` to its input buffer. -/
def copied (s t : State) : State :=
  { s with IBUF := Memory.writeBytes [] 0 (Memory.readBytes t.OBUF t.OLEN.toNat), ILEN := t.OLEN }

/-- A host can always copy an output that fits the input buffer. -/
theorem copied_back {M : Mode} {s t : State} (hs : s.Inv) (hc : s.params = Params.default) (h : ModeEnd M s t)
    (hl : t.OLEN.toNat ≤ 4096) : CopiedBack t (copied s t) := by
  have e := modeEnd_frame h
  have hn : Memory.Canonical ([] : Memory) := ⟨List.Pairwise.nil, fun _ h => absurd h (by simp)⟩
  refine ⟨?_, ?_, ?_, ?_, ?_, ?_, ?_, ?_, rfl, fun k hk => ?_⟩
  · exact ⟨hs.1, writeBytes_canonical _ hn _, hs.3, hs.4, by
      show Memory.Within _ s.params.MSG_CAP
      rw [hc]
      exact writeBytes_within _ (fun _ h => absurd h (by simp)) _ (by rw [readBytes_length]; show 0 + _ ≤ 4096; omega),
      hs.6, hs.7, hs.8, hs.9⟩
  · rw [e]; rfl
  · rw [e]; rfl
  · rw [e]; rfl
  · rw [e]; rfl
  · rw [e]; rfl
  · rw [e]; rfl
  · rw [e]; rfl
  · show Memory.read (Memory.writeBytes [] 0 (Memory.readBytes t.OBUF t.OLEN.toNat)) k = _
    rw [read_writeBytes_zero _ hn, readBytes_length, if_pos hk, readBytes_getD _ hk]

/-- However a mode command ends, its output is at most the message and 16 bytes long. -/
theorem olen_of_modeEnd {M : Mode} {s t : State} (h : ModeEnd M s t) : t.OLEN.toNat ≤ s.ILEN.toNat + 16 := by
  rcases h with ⟨_, rfl⟩ | ⟨_, outs, r, hr, rfl⟩ | ⟨_, _, outs, rfl⟩
  · simp
  · exact le_trans (by rw [complete_OLEN, putOutput_OLEN, BitVec.toNat_ofNat]; exact Nat.mod_le _ _) hr
  · simp

/-- A message of one byte, its ECB ciphertext, and the state that holds it as input. -/
theorem witness_EcbRoundTrip : ∃ s t u : State, s.Inv ∧ s.KLEN = 16#8 ∧ s.ILEN.toNat + 16 ≤ s.params.MSG_CAP ∧
    exec .ecbenc s = .next t ∧ CopiedBack t u :=
  ⟨messageOf 1, _, _, messageOf_inv 1, by decide, by decide, rfl,
    copied_back (messageOf_inv 1) rfl (ecbenc_end _) (le_trans (olen_of_modeEnd (ecbenc_end _)) (by decide))⟩

theorem witness_CbcRoundTrip : ∃ s t u : State, s.Inv ∧ s.KLEN = 16#8 ∧ s.IVLEN = 16#8 ∧
    s.ILEN.toNat + 16 ≤ s.params.MSG_CAP ∧ exec .cbcenc s = .next t ∧ CopiedBack t u :=
  ⟨messageOf 1, _, _, messageOf_inv 1, by decide, by decide, by decide, rfl,
    copied_back (messageOf_inv 1) rfl (cbcenc_end _) (le_trans (olen_of_modeEnd (cbcenc_end _)) (by decide))⟩

theorem witness_CtrRoundTrip : ∃ s t u : State, s.Inv ∧ s.KLEN = 16#8 ∧ s.NLEN = 8#8 ∧
    s.ILEN.toNat ≤ s.params.MSG_CAP ∧ exec .ctrxor s = .next t ∧ CopiedBack t u :=
  ⟨messageOf 1, _, _, messageOf_inv 1, by decide, by decide, by decide, rfl,
    copied_back (messageOf_inv 1) rfl (ctrxor_end _) (le_trans (olen_of_modeEnd (ctrxor_end _)) (by decide))⟩

/-- The first and the last block of two, and an index that is neither `i` nor `i + 1`. -/
theorem witness_CbcChainingSensitivity : 0 < [zeros 16, zeros 16].length ∧ 1 < [zeros 16, zeros 16].length ∧
    0 + 1 < [zeros 16, zeros 16].length ∧ (2 : Nat) ≠ 0 ∧ (2 : Nat) ≠ 0 + 1 := by decide

/-- Two states that agree on the inputs and differ in S and ERR. -/
theorem witness_ModeCommandsArePure : ∃ s s' t t' : State, s ≠ s' ∧ s.Inv ∧ s'.Inv ∧ SameInputs s s' ∧
    exec .ctrxor s = .next t ∧ exec .ctrxor s' = .next t' ∧ t.ERR = .ok :=
  ⟨messageOf 1, { messageOf 1 with ERR := .noKey }, _, _, fun h => absurd (congrArg State.ERR h) (by decide),
    messageOf_inv 1, (fun h => ⟨h.1, h.2, h.3, h.4, h.5, h.6, h.7, h.8, h.9⟩) (messageOf_inv 1),
    ⟨rfl, rfl, rfl, rfl, rfl, rfl, rfl, rfl, rfl, rfl, fun _ _ => rfl, fun _ _ => rfl⟩, rfl, rfl, rfl⟩

/-- A command of each kind the statement tells apart. -/
theorem witness_OnlyListedCommandsWrite : (∃ t, exec .nop State.reset = .next t) ∧ (∃ t, exec .mixcolumns State.reset = .next t) ∧
    (∃ t, exec (.gfmul 2 3) State.reset = .next t) ∧ Instr.nop ≠ .clear ∧ Instr.nop ∉ [Instr.clear, .wxor, .rotword, .subword] :=
  ⟨⟨_, rfl⟩, ⟨_, rfl⟩, ⟨_, rfl⟩, by decide, by decide⟩

/-- A well-formed command for each error of the table. -/
theorem witness_ErrorsAreThoseOfTheTable :
    (∃ t, exec .keyexpand State.reset = .next t ∧ t.ERR = .invalidKeyLength) ∧
    (∃ t, exec .ctrxor { State.reset with KLEN := 16 } = .next t ∧ t.ERR = .invalidIvOrNonceLength) ∧
    (∃ t, exec .strip State.reset = .next t ∧ t.ERR = .paddingError) ∧
    (∃ t, exec (.addroundkey 10) State.reset = .next t ∧ t.ERR = .noKey ∧ (Instr.addroundkey 10).wf = true) ∧
    (∃ t, exec .pad (messageOf 4097) = .next t ∧ t.ERR = .rangeError) :=
  ⟨⟨_, rfl, rfl⟩, ⟨_, rfl, rfl⟩, ⟨_, rfl, rfl⟩, ⟨_, rfl, rfl, rfl⟩, ⟨_, rfl, rfl⟩⟩

/-- Errors with and without output, and a PaddingError of a decryption. -/
theorem witness_ErrorEffects :
    (∃ t, exec .encblock State.reset = .next t ∧ t.ERR ≠ .ok) ∧ (∃ t, exec .strip State.reset = .next t ∧ t.ERR ≠ .ok) ∧
    (∃ t, exec .ecbdec (messageOf 0) = .next t ∧ t.ERR = .paddingError) :=
  ⟨⟨_, rfl, by decide⟩, ⟨_, rfl, by decide⟩, ⟨_, rfl, rfl⟩⟩

theorem witness_StepKeepsInvariant : (messageOf 1).Inv ∧
    ∃ t, step { messageOf 1 with pending := [cmdWrite Params.default (encode .mixcolumns)] } = .next t :=
  ⟨messageOf_inv 1, _, rfl⟩

theorem witness_ResetMeetsInvariant : Params.default.Legal := by decide

end Sys2Proof.Tests
end

