-- ==== Sys2Proof/Proofs/OpcodeTable.lean ====
section
/-! PROOFS. Proofs/OpcodeTable.lean: the decoder's rows (opcode byte and format) and the rows of rule R94 (mask, match and
constraint) are the same table, and so the decoder accepts exactly the words that select a row (30_encoding.md rules R91 to
R95). -/

namespace Sys2Proof.Machine

/-- The mask of a format: OP, Z and the must-be-zero operand fields (rules R91, R94). -/
def formatMask : Format → Word32
  | .N => 0xFFFFFFFF#32
  | .A => 0xFFFF00FF#32
  | .AB => 0xFF0000FF#32

/-- The row of rule R94 that says what a row of the decoder says. -/
def specRowOf (row : OpcodeRow) : SpecRow where
  pattern := packWord row.op 0#8 0#8
  mask := formatMask row.fmt
  constraint a := (row.build a 0#8).wf
  command := row.build

/-- Rule R94's table is the decoder's, row by row. -/
theorem specTable_eq_map_specRowOf : specTable = opcodeRows.map specRowOf := rfl

/-- No operand constraint speaks of `b` (rule R92). -/
theorem wf_build_of_mem {row : OpcodeRow} (hm : row ∈ opcodeRows) (a b : Byte) :
    (row.build a b).wf = (row.build a 0#8).wf := by
  revert row
  simp [opcodeRows, opcodeRowsField, opcodeRowsWord, opcodeRowsRounds, opcodeRowsModes, Instr.wf]

/-- The mask of a format keeps Z and OP whole, and of the operand fields those that must be zero. -/
theorem and_formatMask_eq_iff (f : Format) (op : Byte) (w : Word32) :
    w &&& formatMask f = packWord op 0#8 0#8 ↔ zField w = 0#8 ∧ op = opField w ∧ f.admits w = true := by
  have hz : zField (formatMask f) = 0xFF#8 := by cases f <;> rfl
  have ho : opField (formatMask f) = 0xFF#8 := by cases f <;> rfl
  rw [and_eq_iff_fields, hz, ho, zField_packWord, bField_packWord, aField_packWord, opField_packWord, byte_and_ff,
    byte_and_ff, eq_comm (a := op)]
  cases f with
  | N =>
    have hb : bField (formatMask .N) = 0xFF#8 := rfl
    have ha : aField (formatMask .N) = 0xFF#8 := rfl
    simp only [hb, ha, byte_and_ff, Format.admits, Bool.and_eq_true, beq_iff_eq]
    tauto
  | A =>
    have hb : bField (formatMask .A) = 0xFF#8 := rfl
    have ha : aField (formatMask .A) = 0#8 := rfl
    simp only [hb, ha, byte_and_ff, Format.admits, beq_iff_eq, BitVec.and_zero]
    tauto
  | AB =>
    have hb : bField (formatMask .AB) = 0#8 := rfl
    have ha : aField (formatMask .AB) = 0#8 := rfl
    simp [hb, ha, Format.admits]

/-- Settles O3: both sides ask that some row of the one table be selected, the decoder field by field, rule R94 by mask and
match. -/
theorem decodeFollowsOpcodeTable : Obligations.DecodeFollowsOpcodeTable := by
  intro w i
  rw [decode_eq_ok, specTable_eq_map_specRowOf]
  simp only [List.mem_map, exists_exists_and_eq_and]
  constructor
  · rintro ⟨hz, row, hm, ho, ha, rfl, hw⟩
    exact ⟨row, hm, (and_formatMask_eq_iff _ _ w).mpr ⟨hz, ho, ha⟩, (wf_build_of_mem hm _ _).symm.trans hw, rfl⟩
  · rintro ⟨row, hm, hsel, hc, rfl⟩
    obtain ⟨hz, ho, ha⟩ := (and_formatMask_eq_iff _ _ w).mp hsel
    exact ⟨hz, row, hm, ho, ha, rfl, (wf_build_of_mem hm _ _).trans hc⟩

end Sys2Proof.Machine
end

