-- ==== Sys2Proof/Proofs/KeySchedule.lean ====
section
/-! PROOFS. Proofs/KeySchedule.lean: the word unit and the key-schedule expander (41_word_keyschedule.md): what a turn of
the expander's loop does byte by byte, what each command of the unit leaves, and that its word decodes to it. -/

namespace Sys2Proof.Machine

/-! ### The words of the expansion, byte by byte (rules R120, R130) -/

theorem byteAt_wxor (u v : Word) {r : Nat} (hr : r < 4) : byteAt (wxor u v) r = byteAt u r ^^^ byteAt v r :=
  byteAt_xorBytes u v hr

/-- The first four words of the expansion are the key, split into 4-byte chunks. -/
theorem byteAt_wordAt_expandWords_of_lt (key : Block) {i r : Nat} (hi : i < 4) (hr : r < 4) :
    byteAt (wordAt (expandWords key 40) i) r = byteAt key (4 * i + r) := by
  have start : wordAt (expandWords key 40) i = wordAt (expandWords key 0) i :=
    wordAt_expandWords key (k := 0) (by omega) 40
  rw [start]
  simp [wordAt, expandWords, hi, hr]

/-- A turn of the loop at an index that is no multiple of 4. -/
theorem byteAt_nextWord_of_mod_ne (ws : List Word) {i r : Nat} (hr : r < 4) (h : i % 4 ≠ 0) :
    byteAt (nextWord i ws) r = byteAt (wordAt ws (i - 4)) r ^^^ byteAt (wordAt ws (i - 1)) r := by
  rw [nextWord, if_neg h, byteAt_wxor _ _ hr]

/-- A turn of the loop at a multiple of 4: RotWord, SubWord and the round constant. -/
theorem byteAt_nextWord_of_mod_eq (ws : List Word) {i r : Nat} (hr : r < 4) (h : i % 4 = 0) :
    byteAt (nextWord i ws) r = byteAt (wordAt ws (i - 4)) r ^^^ sbox (byteAt (wordAt ws (i - 1)) ((r + 1) % 4)) ^^^
      (if r = 0 then rc.getD (i / 4 - 1) 0#8 else 0#8) := by
  rw [nextWord, if_pos h, byteAt_wxor _ _ hr, byteAt_wxor _ _ hr, byteAt_subword _ hr, byteAt_rotword _ hr,
    byteAt_rcon _ hr]

/-- From word 4 on, the bytes of a word of the expansion are those of the loop's body at its index. -/
theorem byteAt_expand_eq_nextWord (key : Block) {i r : Nat} (h4 : 4 ≤ i) (hi : i < 44) (hr : r < 4) :
    byteAt (expand key) (4 * i + r) = byteAt (nextWord i (expandWords key 40)) r := by
  rw [byteAt_expand key hi hr, wordAt_expandWords_rec key h4 hi]

/-- Settles O29: the words before word `i` are those the loop's body reads at index `i`, and the body is one of the two
XORs of rule R130. -/
theorem expandFollowsRecurrence : Obligations.ExpandFollowsRecurrence := by
  intro key i r hr w
  have hr' : (r + 1) % 4 < 4 := Nat.mod_lt _ (by decide)
  refine ⟨fun hi => ?_, fun h4 hi hmod => ?_, fun h4 hi hmod => ?_⟩
  · exact (byteAt_expand key (by omega) hr).trans (byteAt_wordAt_expandWords_of_lt key hi hr)
  · simp only [w]
    rw [byteAt_expand_eq_nextWord key h4 hi hr, byteAt_nextWord_of_mod_ne _ hr hmod, byteAt_expand key (by omega) hr,
      byteAt_expand key (by omega) hr]
  · simp only [w]
    rw [byteAt_expand_eq_nextWord key h4 hi hr, byteAt_nextWord_of_mod_eq _ hr hmod, byteAt_expand key (by omega) hr,
      byteAt_expand key (by omega) hr']
    rfl

/-! ### Command words -/

/-- The word of a well-formed command decodes to it, its fields being those of its row (rules R94, R95). -/
theorem encodes_of_encodingFields {i : Instr} {w : Word32} (hf : Laws.EncodingFields.Statement i) (hw : i.wf = true)
    (he : encode i = w) : Encodes w i := by
  obtain ⟨hz, row, hm, ho, ha, hb⟩ := hf
  exact ⟨he ▸ decode_eq_ok.mpr ⟨hz, row, hm, ho, ha, hb.symm, hw⟩, he⟩

/-! ### What each command of the unit leaves -/

theorem exec_wxor (s : State) : exec .wxor s = .next { s with WA := wxor s.WA s.WB, ERR := .ok } := rfl

theorem exec_rotword (s : State) : exec .rotword s = .next { s with WA := rotword s.WA, ERR := .ok } := rfl

theorem exec_subword (s : State) : exec .subword s = .next { s with WA := subword s.WA, ERR := .ok } := rfl

theorem exec_rcon_of_wf {a : Byte} (h : 1 ≤ a.toNat ∧ a.toNat ≤ 10) (s : State) :
    exec (.rcon a) s = .next { s with WA := rcon a.toNat, ERR := .ok } :=
  if_pos h

theorem exec_rcon_of_not_wf {a : Byte} (h : ¬(1 ≤ a.toNat ∧ a.toNat ≤ 10)) (s : State) :
    exec (.rcon a) s = .next { s with ERR := .illegalCommand } :=
  if_neg h

theorem exec_keyexpand_of_klen {s : State} (h : s.KLEN = 16#8) :
    exec .keyexpand s = .next { s with RK := expand s.KEYBUF, RKV := true, ERR := .ok } :=
  if_neg (not_not_intro h)

theorem exec_keyexpand_of_klen_ne {s : State} (h : s.KLEN ≠ 16#8) :
    exec .keyexpand s = .next { s with ERR := .invalidKeyLength } :=
  if_pos h

/-! ### The commands' statements -/

/-- Settles O24: WXOR is the exclusive or of the two words, byte by byte. -/
theorem wxorXorsWords : Obligations.WxorXorsWords := by
  refine ⟨encodes_of_encodingFields Laws.EncodingFields.wxor rfl rfl,
    fun s => ⟨_, exec_wxor s, fun i hi => ?_, rfl⟩⟩
  exact byteAt_wxor s.WA s.WB hi

/-- Settles O25: byte `i` of the rotated word is byte `i + 1` of the old one, cyclically. -/
theorem rotwordRotatesLeft : Obligations.RotwordRotatesLeft := by
  refine ⟨encodes_of_encodingFields Laws.EncodingFields.rotword rfl rfl,
    fun s => ⟨_, exec_rotword s, ?_, ?_, ?_, ?_, rfl⟩⟩
  all_goals exact byteAt_rotword s.WA (by decide)

/-- Settles O26: SUBWORD substitutes each byte. -/
theorem subwordSubstitutesBytes : Obligations.SubwordSubstitutesBytes := by
  refine ⟨encodes_of_encodingFields Laws.EncodingFields.subword rfl rfl,
    fun s => ⟨_, exec_subword s, fun i hi => ?_, rfl⟩⟩
  exact byteAt_subword s.WA hi

/-- Settles O27: inside 1..10 the operand has a word and a constant; outside it the command only raises IllegalCommand. -/
theorem rconWritesConstant : Obligations.RconWritesConstant := by
  refine ⟨fun a h1 h10 => ?_, fun a s => ⟨fun h1 h10 => ?_, fun h => exec_rcon_of_not_wf h s⟩⟩
  · exact encodes_of_encodingFields (Laws.EncodingFields.rcon a) (by simp [Instr.wf, h1, h10]) rfl
  · refine ⟨_, exec_rcon_of_wf ⟨h1, h10⟩ s, ?_, ?_, ?_, ?_, rfl⟩
    all_goals exact byteAt_rcon a.toNat (by decide)

/-- Settles O28: the key length alone decides between the expansion and the error. -/
theorem keyexpandExpandsKey : Obligations.KeyexpandExpandsKey :=
  ⟨encodes_of_encodingFields Laws.EncodingFields.keyexpand rfl rfl,
    fun _ => ⟨exec_keyexpand_of_klen, exec_keyexpand_of_klen_ne⟩⟩

end Sys2Proof.Machine
end

