-- ==== Sys2Proof/Proofs/Rounds.lean ====
section
/-! PROOFS. Proofs/Rounds.lean: the round primitives (42_state_rounds.md): which input byte or which products make a byte of
the result, what each command of the unit leaves, and that its word decodes to it. -/

namespace Sys2Proof.Machine

/-! ### The round primitives, byte by byte (rules R140, R145, R148) -/

/-- AddRoundKey with round key `r`, read from the schedule. -/
theorem byteAt_addroundkey_roundKey (b : Block) (rk : Schedule) (r : Nat) {i : Nat} (hi : i < 16) :
    byteAt (addroundkey b (roundKey rk r)) i = byteAt b i ^^^ byteAt rk (16 * r + i) := by
  rw [byteAt_addroundkey _ _ hi, byteAt_roundKey _ _ hi]

/-- The formula of rule R145 for ShiftRows gives the indices that the rule lists. -/
theorem shiftrows_index_eq : ∀ i < 16, 4 * ((i / 4 + i % 4) % 4) + i % 4 =
    [0, 5, 10, 15, 4, 9, 14, 3, 8, 13, 2, 7, 12, 1, 6, 11].getD i 0 := by decide

/-- The formula of rule R145 for InvShiftRows gives the indices that the rule lists. -/
theorem invshiftrows_index_eq : ∀ i < 16, 4 * ((i / 4 + 4 - i % 4) % 4) + i % 4 =
    [0, 13, 10, 7, 4, 1, 14, 11, 8, 5, 2, 15, 12, 9, 6, 3].getD i 0 := by decide

/-- Byte `4c + r` of MixColumns is row `r` of the forward matrix times column `c`. -/
theorem byteAt_mixcolumns_column (b : Block) {c r : Nat} (hc : c < 4) (hr : r < 4) :
    byteAt (mixcolumns b) (4 * c + r) = mixByte mixMatrix b c r := by
  rw [byteAt_mixcolumns b (by omega), show (4 * c + r) / 4 = c by omega, show (4 * c + r) % 4 = r by omega]

/-- Byte `4c + r` of InvMixColumns is row `r` of the inverse matrix times column `c`. -/
theorem byteAt_invmixcolumns_column (b : Block) {c r : Nat} (hc : c < 4) (hr : r < 4) :
    byteAt (invmixcolumns b) (4 * c + r) = mixByte invMixMatrix b c r := by
  rw [byteAt_invmixcolumns b (by omega), show (4 * c + r) / 4 = c by omega, show (4 * c + r) % 4 = r by omega]

/-! ### What each command of the unit leaves -/

theorem exec_addroundkey_of_rkv {a : Byte} {s : State} (ha : a.toNat ≤ 10) (hk : s.RKV = true) :
    exec (.addroundkey a) s = .next { s with S := addroundkey s.S (roundKey s.RK a.toNat), ERR := .ok } :=
  (if_neg (Nat.not_lt.mpr ha)).trans (if_neg (by simp [hk]))

theorem exec_addroundkey_of_not_rkv {a : Byte} {s : State} (ha : a.toNat ≤ 10) (hk : s.RKV = false) :
    exec (.addroundkey a) s = .next { s with ERR := .noKey } :=
  (if_neg (Nat.not_lt.mpr ha)).trans (if_pos hk)

theorem exec_addroundkey_of_not_wf {a : Byte} (ha : 10 < a.toNat) (s : State) :
    exec (.addroundkey a) s = .next { s with ERR := .illegalCommand } :=
  if_pos ha

theorem exec_subbytes (s : State) : exec .subbytes s = .next { s with S := subbytes s.S, ERR := .ok } := rfl

theorem exec_invsubbytes (s : State) : exec .invsubbytes s = .next { s with S := invsubbytes s.S, ERR := .ok } := rfl

theorem exec_shiftrows (s : State) : exec .shiftrows s = .next { s with S := shiftrows s.S, ERR := .ok } := rfl

theorem exec_invshiftrows (s : State) : exec .invshiftrows s = .next { s with S := invshiftrows s.S, ERR := .ok } := rfl

theorem exec_mixcolumns (s : State) : exec .mixcolumns s = .next { s with S := mixcolumns s.S, ERR := .ok } := rfl

theorem exec_invmixcolumns (s : State) :
    exec .invmixcolumns s = .next { s with S := invmixcolumns s.S, ERR := .ok } := rfl

/-! ### The commands' statements -/

/-- Settles O30: the operand is looked at first, then RKV; only past both does S take the XOR with the round key. -/
theorem addroundkeyXorsRoundKey : Obligations.AddroundkeyXorsRoundKey := by
  refine ⟨fun a ha => ?_, fun a s => ⟨fun ha hk => ?_, exec_addroundkey_of_not_rkv,
    fun ha => exec_addroundkey_of_not_wf ha s⟩⟩
  · exact encodes_of_encodingFields (Laws.EncodingFields.addroundkey a) (by simp [Instr.wf, ha]) rfl
  · refine ⟨_, exec_addroundkey_of_rkv ha hk, fun i hi => ?_, rfl⟩
    exact byteAt_addroundkey_roundKey s.S s.RK a.toNat hi

/-- Settles O32: each command moves the bytes by the formula of its function, which is the listed table. -/
theorem shiftRowsPermuteBytes : Obligations.ShiftRowsPermuteBytes := by
  refine ⟨encodes_of_encodingFields Laws.EncodingFields.shiftrows rfl rfl,
    encodes_of_encodingFields Laws.EncodingFields.invshiftrows rfl rfl,
    fun s => ⟨⟨_, exec_shiftrows s, fun i hi => ?_, rfl⟩, ⟨_, exec_invshiftrows s, fun i hi => ?_, rfl⟩⟩⟩
  · rw [← shiftrows_index_eq i hi]
    exact byteAt_shiftrows s.S hi
  · rw [← invshiftrows_index_eq i hi]
    exact byteAt_invshiftrows s.S hi

/-- Settles O33: the model's matrices are those of rule R148, and a byte of the result is its row times its column. -/
theorem mixColumnsMultiplyColumns : Obligations.MixColumnsMultiplyColumns := by
  refine ⟨encodes_of_encodingFields Laws.EncodingFields.mixcolumns rfl rfl,
    encodes_of_encodingFields Laws.EncodingFields.invmixcolumns rfl rfl,
    fun s => ⟨⟨_, exec_mixcolumns s, fun c hc r hr => ?_, rfl⟩, ⟨_, exec_invmixcolumns s, fun c hc r hr => ?_, rfl⟩⟩⟩
  · exact byteAt_mixcolumns_column s.S hc hr
  · exact byteAt_invmixcolumns_column s.S hc hr

/-- Settles O31: each command substitutes every byte of S, and neither looks at RKV. -/
theorem subBytesActByteByByte : Obligations.SubBytesActByteByByte := by
  refine ⟨encodes_of_encodingFields Laws.EncodingFields.subbytes rfl rfl,
    encodes_of_encodingFields Laws.EncodingFields.invsubbytes rfl rfl,
    fun s => ⟨⟨_, exec_subbytes s, fun i hi => ?_, rfl⟩, ⟨_, exec_invsubbytes s, fun i hi => ?_, rfl⟩⟩⟩
  · exact byteAt_subbytes s.S hi
  · exact byteAt_invsubbytes s.S hi

end Sys2Proof.Machine
end

