-- ==== Sys2Proof/Proofs/BlockCipher.lean ====
section
/-! PROOFS. Proofs/BlockCipher.lean: the ten-round sequencer (43_block_cipher.md): one equation per kind of round, the blocks
being counted as rules R160 and R161 count their rounds, and what ENCBLOCK and DECBLOCK leave. -/

namespace Sys2Proof.Machine

/-! ### The rounds of encryption (rule R160) -/

/-- AddRoundKey(0) comes before the first round. -/
theorem encRounds_zero (rk : Schedule) (s : Block) : encRounds rk s 0 = addroundkey s (roundKey rk 0) := by
  rw [encRounds]

/-- Rounds 1 to 9 have MixColumns. -/
theorem encRounds_succ_of_lt (rk : Schedule) (s : Block) {r : Nat} (hr : r < 9) :
    encRounds rk s (r + 1) =
      addroundkey (mixcolumns (shiftrows (subbytes (encRounds rk s r)))) (roundKey rk (r + 1)) := by
  rw [encRounds, if_pos (by omega)]

/-- Round 10 has no MixColumns. -/
theorem encRounds_ten (rk : Schedule) (s : Block) :
    encRounds rk s 10 = addroundkey (shiftrows (subbytes (encRounds rk s 9))) (roundKey rk 10) := by
  rw [encRounds, if_neg (by decide)]

theorem encblock_eq_encRounds (s : Block) (rk : Schedule) : encblock s rk = encRounds rk s 10 := by
  rw [encblock]

/-! ### The rounds of decryption (rule R161) -/

/-- The block after round `r` of decryption, round 10 being AddRoundKey(10): the rounds count down, the model's turns up. -/
def blockAfterInvRound (rk : Schedule) (s : Block) (r : Nat) : Block := decRounds rk s (10 - r)

/-- AddRoundKey(10) comes before round 9. -/
theorem blockAfterInvRound_ten (rk : Schedule) (s : Block) :
    blockAfterInvRound rk s 10 = addroundkey s (roundKey rk 10) := by
  rw [blockAfterInvRound, decRounds]

/-- Rounds 9 to 1 have InvMixColumns, after AddRoundKey. -/
theorem blockAfterInvRound_of_pos (rk : Schedule) (s : Block) {r : Nat} (h1 : 1 ≤ r) (h9 : r ≤ 9) :
    blockAfterInvRound rk s r =
      invmixcolumns (addroundkey (invsubbytes (invshiftrows (blockAfterInvRound rk s (r + 1)))) (roundKey rk r)) := by
  have turn : 10 - r = 10 - (r + 1) + 1 := by omega
  have round : 9 - (10 - (r + 1)) = r := by omega
  rw [blockAfterInvRound, turn, decRounds, round, if_pos (by omega), blockAfterInvRound]

/-- Round 0 has no InvMixColumns. -/
theorem blockAfterInvRound_zero (rk : Schedule) (s : Block) :
    blockAfterInvRound rk s 0 = addroundkey (invsubbytes (invshiftrows (blockAfterInvRound rk s 1))) (roundKey rk 0) := by
  rw [blockAfterInvRound, blockAfterInvRound, decRounds, if_neg (by decide)]

theorem decblock_eq_blockAfterInvRound (s : Block) (rk : Schedule) : decblock s rk = blockAfterInvRound rk s 0 := by
  rw [decblock, blockAfterInvRound]

/-! ### What each command of the unit leaves (rules R162, R163) -/

theorem exec_encblock_of_not_rkv {s : State} (h : s.RKV = false) : exec .encblock s = .next { s with ERR := .noKey } :=
  if_pos h

theorem exec_encblock_of_rkv {s : State} (h : s.RKV = true) :
    exec .encblock s = .next { s with S := encblock s.S s.RK, ERR := .ok } :=
  if_neg (by simp [h])

theorem exec_decblock_of_not_rkv {s : State} (h : s.RKV = false) : exec .decblock s = .next { s with ERR := .noKey } :=
  if_pos h

theorem exec_decblock_of_rkv {s : State} (h : s.RKV = true) :
    exec .decblock s = .next { s with S := decblock s.S s.RK, ERR := .ok } :=
  if_neg (by simp [h])

/-! ### The commands' statements -/

/-- Settles O35: the blocks of the chain are those the model's rounds pass through. -/
theorem encblockRunsTenRounds : Obligations.EncblockRunsTenRounds := by
  refine ⟨encodes_of_encodingFields Laws.EncodingFields.encblock rfl rfl,
    fun s => ⟨exec_encblock_of_not_rkv, fun hk => ⟨encRounds s.RK s.S, encRounds_zero s.RK s.S, fun r hr => ?_,
      encRounds_ten s.RK s.S, ?_⟩⟩⟩
  · exact encRounds_succ_of_lt s.RK s.S hr
  · rw [← encblock_eq_encRounds]
    exact exec_encblock_of_rkv hk

/-- Settles O36: the blocks of the chain are those the model's turns pass through, counted down. -/
theorem decblockRunsRoundsBackward : Obligations.DecblockRunsRoundsBackward := by
  refine ⟨encodes_of_encodingFields Laws.EncodingFields.decblock rfl rfl,
    fun s => ⟨exec_decblock_of_not_rkv, fun hk => ⟨blockAfterInvRound s.RK s.S, blockAfterInvRound_ten s.RK s.S,
      fun r h1 h9 => ?_, blockAfterInvRound_zero s.RK s.S, ?_⟩⟩⟩
  · exact blockAfterInvRound_of_pos s.RK s.S h1 h9
  · rw [← decblock_eq_blockAfterInvRound]
    exact exec_decblock_of_rkv hk

end Sys2Proof.Machine
end

