-- ==== Sys2Proof/Proofs/Padding.lean ====
section
/-! PROOFS. Proofs/Padding.lean: the padding unit (44_padding.md): what a padded message reads byte by byte, what PAD and
STRIP leave on each side of the range check, and that their words decode to them. -/

namespace Sys2Proof.Machine

/-! ### The padded message, byte by byte (rule R170) -/

theorem pad_message_length (s : State) : (pad (message s)).length = s.ILEN.toNat + (16 - s.ILEN.toNat % 16) := by
  rw [pad_length, message_length]

/-- The message comes first. -/
theorem pad_message_getD_of_lt {s : State} {k : Nat} (hk : k < s.ILEN.toNat) :
    (pad (message s)).getD k 0#8 = Memory.read s.IBUF k := by
  rw [pad_getD _ (by rw [pad_message_length]; omega), message_length, if_pos hk, message_getD s hk]

/-- After the message come its padding bytes. -/
theorem pad_message_getD_of_ge {s : State} {k : Nat} (hk : s.ILEN.toNat ≤ k) (hr : k < (pad (message s)).length) :
    (pad (message s)).getD k 0#8 = BitVec.ofNat 8 (16 - s.ILEN.toNat % 16) := by
  rw [pad_getD _ hr, message_length, if_neg (Nat.not_lt.mpr hk)]

/-- A message that fits MSG_CAP stays, padded, within the largest OBUF that rule R6 admits. -/
theorem pad_message_length_le {s : State} (hp : s.params.Legal) (hl : s.ILEN.toNat ≤ s.params.MSG_CAP) :
    (pad (message s)).length ≤ 65536 := by
  obtain ⟨-, -, hcap⟩ := hp
  rw [pad_message_length]
  omega

/-! ### What each command of the unit leaves (rules R172, R173) -/

theorem messageTooLong_of_lt {s : State} (h : s.params.MSG_CAP < s.ILEN.toNat) : messageTooLong s = true :=
  decide_eq_true h

theorem messageTooLong_of_le {s : State} (h : s.ILEN.toNat ≤ s.params.MSG_CAP) : messageTooLong s = false :=
  decide_eq_false (Nat.not_lt.mpr h)

theorem exec_pad_of_lt {s : State} (h : s.params.MSG_CAP < s.ILEN.toNat) :
    exec .pad s = .next (failedWith .rangeError s) :=
  if_pos (messageTooLong_of_lt h)

theorem exec_pad_of_le {s : State} (h : s.ILEN.toNat ≤ s.params.MSG_CAP) :
    exec .pad s = .next (State.complete (State.putOutput (pad (message s)) s)) :=
  if_neg (by simp [messageTooLong_of_le h])

theorem exec_strip_of_lt {s : State} (h : s.params.MSG_CAP < s.ILEN.toNat) :
    exec .strip s = .next (failedWith .rangeError s) :=
  if_pos (messageTooLong_of_lt h)

theorem exec_strip_of_le {s : State} (h : s.ILEN.toNat ≤ s.params.MSG_CAP) :
    exec .strip s = .next (stripToOutput (message s) s) :=
  if_neg (by simp [messageTooLong_of_le h])

/-! ### The commands' statements -/

/-- Settles O39: OBUF reads the padded message below its length, and its old bytes from there on. -/
theorem padAppendsPadding : Obligations.PadAppendsPadding := by
  refine ⟨encodes_of_encodingFields Laws.EncodingFields.pad rfl rfl, fun s hs => ⟨exec_pad_of_lt, fun hl => ?_⟩⟩
  have olen : (State.complete (State.putOutput (pad (message s)) s)).OLEN.toNat = (pad (message s)).length :=
    olen_putOutput s (pad_message_length_le hs.paramsLegal hl)
  have obuf := read_putOutput (r := pad (message s)) hs.obufCanonical
  refine ⟨_, exec_pad_of_le hl, olen.trans (pad_message_length s), fun k hk => ?_, fun k hk hr => ?_, fun k hk => ?_, rfl⟩
  · have hr : k < (pad (message s)).length := by rw [pad_message_length]; omega
    rw [complete_OBUF, obuf, if_pos hr, pad_message_getD_of_lt hk]
  · rw [olen] at hr
    rw [complete_OBUF, obuf, if_pos hr, pad_message_getD_of_ge hk hr]
  · rw [olen] at hk
    rw [complete_OBUF, obuf, if_neg (Nat.not_lt.mpr hk)]

/-- Settles O40: past the range check the command ends in `strip` of the message, whose bytes are those of IBUF. -/
theorem stripRemovesValidPadding : Obligations.StripRemovesValidPadding := by
  refine ⟨encodes_of_encodingFields Laws.EncodingFields.strip rfl rfl, fun s hs => ⟨exec_strip_of_lt, fun hl => ?_⟩⟩
  obtain ⟨-, -, hcap⟩ := hs.paramsLegal
  rw [exec_strip_of_le hl]
  refine stripToOutput_outcome _ (message_length s) (fun k hk => ?_) hs.obufCanonical ?_
  · exact message_getD s (message_length s ▸ hk)
  · rw [message_length]
    omega

end Sys2Proof.Machine
end

