-- ==== Sys2Proof/Proofs/Modes.lean ====
section
/-! PROOFS. Proofs/Modes.lean: the mode controller (45_modes.md): the block lists each mode command works on, the state it
leaves once its prologue's checks pass, and what S and OBUF then hold, block by block (ECB, CBC) or byte by byte (CTR and
the two decryptions). -/

namespace Sys2Proof.Machine

/-! ### Blocks of the message and of the padded message -/

theorem padded_blocks_length (s : State) : (blocksOf (pad (message s))).length = s.ILEN.toNat / 16 + 1 := by
  rw [blocksOf_length, pad_length_blocks, message_length, Nat.mul_div_cancel_left _ (by decide)]

theorem padded_blocks_getD (s : State) (d : Block) {i : Nat} (hi : i ≤ s.ILEN.toNat / 16) :
    (blocksOf (pad (message s))).getD i d = paddedBlock s i := by
  have hlt : i < (pad (message s)).length / 16 := by
    rw [← blocksOf_length, padded_blocks_length]
    omega
  rw [List.getD, blocksOf_getElem? _ hlt, Option.getD_some, blockAt_pad s hi]

theorem message_blocks_length (s : State) : (blocksOf (message s)).length = s.ILEN.toNat / 16 := by
  rw [blocksOf_length, message_length]

theorem message_blocks_getD (s : State) (d : Block) {i : Nat} (hi : i < s.ILEN.toNat / 16) :
    (blocksOf (message s)).getD i d = blockIn s.IBUF i := by
  rw [List.getD, blocksOf_getElem? _ (by rwa [message_length]), Option.getD_some, blockAt_message s (by omega)]

theorem map_getD_of_lt (f : Block → Block) (bs : List Block) (d : Block) {i : Nat} (hi : i < bs.length) :
    (bs.map f).getD i d = f (bs.getD i d) := by
  simp [List.getD, hi]

/-- After at least one block only S has changed, and it holds the last. -/
theorem ranBlocks_eq {outs : List Block} {n : Nat} (hn : outs.length = n + 1) (d : Block) (s : State) :
    State.ranBlocks outs s = { s with S := outs.getD n d } := by
  have last := ranBlocks_last s d (outs := outs) (by omega)
  rw [hn, Nat.add_sub_cancel] at last
  rw [← last]
  rfl

/-! ### The end of a mode command that completes normally -/

/-- The blocks `outs` passed through S and the bytes `r` are the output. -/
def putResult (r : List Byte) (outs : List Block) (s : State) : State :=
  State.complete (State.putOutput r (State.ranBlocks outs s))

/-- Nothing but S, the output and ERR changes. -/
theorem putResult_frame (r : List Byte) (outs : List Block) (s : State) :
    putResult r outs s =
      { s with S := (putResult r outs s).S, OBUF := (putResult r outs s).OBUF, OLEN := (putResult r outs s).OLEN,
               ERR := .ok } := rfl

theorem putResult_S {outs : List Block} {n : Nat} (hn : outs.length = n + 1) (d : Block) (r : List Byte) (s : State) :
    (putResult r outs s).S = outs.getD n d :=
  congrArg State.S (ranBlocks_eq hn d s)

/-- The output comes first; beyond it the buffer keeps its bytes. -/
theorem read_putResult {r : List Byte} {n : Nat} (hr : r.length = n) {s : State} (hs : s.Inv) (outs : List Block) (k : Nat) :
    Memory.read (putResult r outs (keyed s)).OBUF k = if k < n then r.getD k 0#8 else Memory.read s.OBUF k := by
  subst hr
  exact read_putOutput (s := State.ranBlocks outs (keyed s)) hs.obufCanonical k

/-! ### What each mode command leaves once its checks pass (rules R181 to R198) -/

/-- The ciphertext blocks of ECBENC (rule R182). -/
def ecbCiphertext (s : State) : List Block := (blocksOf (pad (message s))).map fun p => encblock p (expand s.KEYBUF)

/-- The ciphertext blocks of CBCENC (rule R185). -/
def cbcCiphertext (s : State) : List Block := cbcEncChain (expand s.KEYBUF) s.IVBUF (blocksOf (pad (message s)))

/-- The outputs of the block cipher in ECBDEC, where they are the plaintext, and in CBCDEC (rules R183, R186). -/
def decryptedBlocks (s : State) : List Block := (blocksOf (message s)).map fun c => decblock c (expand s.KEYBUF)

/-- The plaintext blocks of CBCDEC (rule R186). -/
def cbcPlaintext (s : State) : List Block := cbcDecChain (expand s.KEYBUF) s.IVBUF (blocksOf (message s))

/-- The `n` keystream blocks from block `first` on, under the key in KEYBUF (rule R196). -/
def keystreamFrom (s : State) (first n : Nat) : List Block := (List.range' first n).map (keystreamBlock (keyed s))

/-- The keystream blocks of CTRXOR (rule R197). -/
def ctrxorKeystream (s : State) : List Block := keystreamFrom s 0 ((s.ILEN.toNat + 15) / 16)

/-- The output of CTRXOR (rule R197). -/
def ctrxorOutput (s : State) : List Byte := List.zipWith (· ^^^ ·) (message s) (joinBlocks (ctrxorKeystream s))

/-- How many keystream blocks CTREDIT generates (rule R198). -/
def editBlockCount (s : State) : Nat :=
  if s.XLEN.toNat = 0 then 0 else (s.XOFF.toNat + s.XLEN.toNat - 1) / 16 - s.XOFF.toNat / 16 + 1

/-- The keystream blocks of CTREDIT (rule R198). -/
def editKeystream (s : State) : List Block := keystreamFrom s (s.XOFF.toNat / 16) (editBlockCount s)

/-- The output of CTREDIT (rule R198). -/
def editOutput (s : State) : List Byte := spliceEdit (keyed s) (s.XOFF.toNat / 16) (joinBlocks (editKeystream s))

theorem editBlocks_eq_range' (s : State) : editBlocks s = List.range' (s.XOFF.toNat / 16) (editBlockCount s) := by
  unfold editBlocks editBlockCount
  split <;> rfl

section
variable {s : State} (hk : s.KLEN = 16#8) (hl : s.ILEN.toNat ≤ s.params.MSG_CAP)
include hk hl

theorem exec_ecbenc_of_checks :
    exec .ecbenc s = .next (putResult (joinBlocks (ecbCiphertext s)) (ecbCiphertext s) (keyed s)) :=
  congrArg _ (prologue_ok (modeCheck_ok (M := .ecbenc) hk nofun nofun hl nofun) ecbencBody)

theorem exec_ecbdec_of_checks : exec .ecbdec s = .next (ecbdecBody (keyed s)) :=
  congrArg _ (prologue_ok (modeCheck_ok (M := .ecbdec) hk nofun nofun hl nofun) ecbdecBody)

theorem exec_cbcenc_of_checks (hv : s.IVLEN = 16#8) :
    exec .cbcenc s = .next (putResult (joinBlocks (cbcCiphertext s)) (cbcCiphertext s) (keyed s)) :=
  congrArg _ (prologue_ok (modeCheck_ok (M := .cbcenc) hk (fun _ => hv) nofun hl nofun) cbcencBody)

theorem exec_cbcdec_of_checks (hv : s.IVLEN = 16#8) : exec .cbcdec s = .next (cbcdecBody (keyed s)) :=
  congrArg _ (prologue_ok (modeCheck_ok (M := .cbcdec) hk (fun _ => hv) nofun hl nofun) cbcdecBody)

theorem exec_ctrxor_of_checks (hn : s.NLEN = 8#8) :
    exec .ctrxor s = .next (putResult (ctrxorOutput s) (ctrxorKeystream s) (keyed s)) := by
  rw [ctrxorOutput, ctrxorKeystream, keystreamFrom, ← List.range_eq_range']
  exact congrArg _ (prologue_ok (modeCheck_ok (M := .ctrxor) hk nofun (fun _ => hn) hl nofun) ctrxorBody)

theorem exec_ctredit_of_checks (hn : s.NLEN = 8#8) (hx : s.XLEN.toNat ≤ s.params.MSG_CAP)
    (he : s.XOFF.toNat + s.XLEN.toNat ≤ s.ILEN.toNat) :
    exec .ctredit s = .next (putResult (editOutput s) (editKeystream s) (keyed s)) := by
  rw [editOutput, editKeystream, keystreamFrom, ← editBlocks_eq_range']
  exact congrArg _ (prologue_ok (modeCheck_ok (M := .ctredit) hk nofun (fun _ => hn) hl fun _ => ⟨hx, he⟩) ctreditBody)

end

/-! ### ECBENC and CBCENC: the output is the blocks that passed through S (rules R182, R185) -/

theorem ecbCiphertext_length (s : State) : (ecbCiphertext s).length = s.ILEN.toNat / 16 + 1 := by
  rw [ecbCiphertext, List.length_map, padded_blocks_length]

theorem ecbCiphertext_getD (s : State) (d : Block) {i : Nat} (hi : i ≤ s.ILEN.toNat / 16) :
    (ecbCiphertext s).getD i d = encblock (paddedBlock s i) (expand s.KEYBUF) := by
  rw [ecbCiphertext, map_getD_of_lt _ _ _ (by rw [padded_blocks_length]; omega), padded_blocks_getD s _ hi]

theorem cbcCiphertext_length (s : State) : (cbcCiphertext s).length = s.ILEN.toNat / 16 + 1 := by
  rw [cbcCiphertext, cbcEncChain_length, padded_blocks_length]

theorem cbcCiphertext_getD (s : State) (d : Block) {i : Nat} (hi : i ≤ s.ILEN.toNat / 16) :
    (cbcCiphertext s).getD i d = encblock
      (xorBytes (paddedBlock s i) (if i = 0 then s.IVBUF else (cbcCiphertext s).getD (i - 1) d)) (expand s.KEYBUF) := by
  rw [cbcCiphertext, cbcEncChain_getD _ _ _ _ (by rw [padded_blocks_length]; omega), padded_blocks_getD s _ hi]

section
variable {s : State} {outs : List Block} (hs : s.Inv) (hn : outs.length = s.ILEN.toNat / 16 + 1)
include hs hn

theorem blockIn_ciphertext {i : Nat} (hi : i ≤ s.ILEN.toNat / 16) :
    blockIn (putResult (joinBlocks outs) outs (keyed s)).OBUF i = outs.getD i (zeros 16) :=
  blockIn_putOutput (s := State.ranBlocks outs (keyed s)) hs.obufCanonical (by omega)

theorem S_eq_last_ciphertext : (putResult (joinBlocks outs) outs (keyed s)).S =
    blockIn (putResult (joinBlocks outs) outs (keyed s)).OBUF (s.ILEN.toNat / 16) := by
  rw [blockIn_ciphertext hs hn (le_refl _), putResult_S hn]

variable (hl : s.ILEN.toNat ≤ s.params.MSG_CAP)
include hl

theorem ciphertext_olen : (putResult (joinBlocks outs) outs (keyed s)).OLEN.toNat = 16 * (s.ILEN.toNat / 16 + 1) := by
  obtain ⟨-, -, hcap⟩ := hs.paramsLegal
  have len : (joinBlocks outs).length = 16 * (s.ILEN.toNat / 16 + 1) := by rw [joinBlocks_length, hn]
  exact (olen_putOutput (State.ranBlocks outs (keyed s)) (by omega)).trans len

theorem read_past_ciphertext (k : Nat) (hk : (putResult (joinBlocks outs) outs (keyed s)).OLEN.toNat ≤ k) :
    Memory.read (putResult (joinBlocks outs) outs (keyed s)).OBUF k = Memory.read s.OBUF k := by
  rw [ciphertext_olen hs hn hl, ← hn, ← joinBlocks_length] at hk
  rw [read_putResult rfl hs, if_neg (Nat.not_lt.mpr hk)]

end

/-- Settles O43: block `i` of the output is block `i` of the padded message, encrypted. -/
theorem ecbencEncryptsEachBlock : Obligations.EcbencEncryptsEachBlock := by
  refine ⟨encodes_of_encodingFields Laws.EncodingFields.ecbenc rfl rfl, fun s hs hk hl => ?_⟩
  have hn := ecbCiphertext_length s
  refine ⟨_, exec_ecbenc_of_checks hk hl, ciphertext_olen hs hn hl, fun i hi => ?_, read_past_ciphertext hs hn hl,
    S_eq_last_ciphertext hs hn, putResult_frame _ _ _⟩
  rw [blockIn_ciphertext hs hn hi, ecbCiphertext_getD s _ hi]

/-- Settles O45: the chain's recurrence, each ciphertext block read back from the output. -/
theorem cbcencChainsBlocks : Obligations.CbcencChainsBlocks := by
  refine ⟨encodes_of_encodingFields Laws.EncodingFields.cbcenc rfl rfl, fun s hs hk hv hl => ?_⟩
  have hn := cbcCiphertext_length s
  refine ⟨_, exec_cbcenc_of_checks hk hl hv, ciphertext_olen hs hn hl, ?_, fun i hi => ?_, read_past_ciphertext hs hn hl,
    S_eq_last_ciphertext hs hn, putResult_frame _ _ _⟩
  · rw [blockIn_ciphertext hs hn (Nat.zero_le _), cbcCiphertext_getD s _ (Nat.zero_le _), if_pos rfl]
  · rw [blockIn_ciphertext hs hn hi, cbcCiphertext_getD s _ hi, if_neg (Nat.succ_ne_zero i), Nat.succ_sub_one,
      blockIn_ciphertext hs hn hi.le]

/-! ### ECBDEC and CBCDEC: the length check, the plaintext and its stripping (rules R183, R186) -/

theorem raggedMessage_of_ragged {s : State} (h : s.ILEN.toNat = 0 ∨ s.ILEN.toNat % 16 ≠ 0) : raggedMessage s = true := by
  simpa [raggedMessage] using h

theorem raggedMessage_of_whole {s : State} (h0 : s.ILEN.toNat ≠ 0) (h16 : s.ILEN.toNat % 16 = 0) :
    ¬raggedMessage s = true := by
  simp [raggedMessage, h0, h16]

theorem ecbdecBody_of_ragged {s : State} (h : s.ILEN.toNat = 0 ∨ s.ILEN.toNat % 16 ≠ 0) :
    ecbdecBody (keyed s) = failedWith .paddingError (keyed s) :=
  if_pos (raggedMessage_of_ragged (s := keyed s) h)

theorem cbcdecBody_of_ragged {s : State} (h : s.ILEN.toNat = 0 ∨ s.ILEN.toNat % 16 ≠ 0) :
    cbcdecBody (keyed s) = failedWith .paddingError (keyed s) :=
  if_pos (raggedMessage_of_ragged (s := keyed s) h)

section
variable {s : State} (h0 : s.ILEN.toNat ≠ 0) (h16 : s.ILEN.toNat % 16 = 0)
include h0 h16

theorem ecbdecBody_of_whole :
    ecbdecBody (keyed s) =
      stripToOutput (joinBlocks (decryptedBlocks s)) (State.ranBlocks (decryptedBlocks s) (keyed s)) :=
  if_neg (raggedMessage_of_whole (s := keyed s) h0 h16)

theorem cbcdecBody_of_whole :
    cbcdecBody (keyed s) =
      stripToOutput (joinBlocks (cbcPlaintext s)) (State.ranBlocks (decryptedBlocks s) (keyed s)) :=
  if_neg (raggedMessage_of_whole (s := keyed s) h0 h16)

end

theorem decryptedBlocks_length (s : State) : (decryptedBlocks s).length = s.ILEN.toNat / 16 := by
  rw [decryptedBlocks, List.length_map, message_blocks_length]

theorem decryptedBlocks_getD (s : State) (d : Block) {i : Nat} (hi : i < s.ILEN.toNat / 16) :
    (decryptedBlocks s).getD i d = decblock (blockIn s.IBUF i) (expand s.KEYBUF) := by
  rw [decryptedBlocks, map_getD_of_lt _ _ _ (by rwa [message_blocks_length]), message_blocks_getD s _ hi]

theorem cbcPlaintext_length (s : State) : (cbcPlaintext s).length = s.ILEN.toNat / 16 := by
  rw [cbcPlaintext, cbcDecChain_length, message_blocks_length]

theorem cbcPlaintext_getD (s : State) (d : Block) {i : Nat} (hi : i < s.ILEN.toNat / 16) :
    (cbcPlaintext s).getD i d =
      xorBytes (decblock (blockIn s.IBUF i) (expand s.KEYBUF)) (if i = 0 then s.IVBUF else blockIn s.IBUF (i - 1)) := by
  rw [cbcPlaintext, cbcDecChain_getD _ _ _ _ (by rwa [message_blocks_length]), message_blocks_getD s _ hi,
    message_blocks_getD s _ (by omega)]

/-- Byte `k mod 16` of the block before block `k div 16`: 16 bytes back, or the IV's before block 0. -/
theorem byteAt_previous_block (iv : Block) (m : Memory) (k : Nat) :
    byteAt (if k / 16 = 0 then iv else blockIn m (k / 16 - 1)) (k % 16) =
      if k < 16 then byteAt iv k else Memory.read m (k - 16) := by
  by_cases h : k < 16
  · rw [if_pos h, if_pos (by omega), Nat.mod_eq_of_lt h]
  · rw [if_neg h, if_neg (by omega), byteAt_blockIn _ _ (Nat.mod_lt _ (by decide)),
      show 16 * (k / 16 - 1) + k % 16 = k - 16 by omega]

/-- What both decryptions of a whole number of blocks do: the last decrypted block stays in S, and the plaintext blocks
`ps`, whose bytes are `f`, are stripped. -/
theorem decryption_outcome {s : State} {ps : List Block} (f : Nat → Byte) (hs : s.Inv)
    (hl : s.ILEN.toNat ≤ s.params.MSG_CAP) (h0 : s.ILEN.toNat ≠ 0) (h16 : s.ILEN.toNat % 16 = 0)
    (hp : ps.length = s.ILEN.toNat / 16)
    (hf : ∀ k < s.ILEN.toNat, byteAt (ps.getD (k / 16) (zeros 16)) (k % 16) = f k) :
    StripOutcome f { keyed s with S := decblock (blockIn s.IBUF (s.ILEN.toNat / 16 - 1)) (expand s.KEYBUF) }
      (.next (stripToOutput (joinBlocks ps) (State.ranBlocks (decryptedBlocks s) (keyed s)))) := by
  obtain ⟨-, -, hcap⟩ := hs.paramsLegal
  have len : (joinBlocks ps).length = s.ILEN.toNat := by
    rw [joinBlocks_length, hp]
    omega
  have last : (decryptedBlocks s).length = s.ILEN.toNat / 16 - 1 + 1 := by
    rw [decryptedBlocks_length]
    omega
  rw [ranBlocks_eq last (zeros 16), decryptedBlocks_getD s _ (by omega)]
  refine stripToOutput_outcome f len (fun k hk => ?_) hs.obufCanonical (by omega)
  rw [joinBlocks_getD, hf k (by omega)]

/-- Settles O44: the plaintext is the decrypted blocks. -/
theorem ecbdecDecryptsAndStrips : Obligations.EcbdecDecryptsAndStrips := by
  refine ⟨encodes_of_encodingFields Laws.EncodingFields.ecbdec rfl rfl, fun s hs hk hl => ?_⟩
  rw [exec_ecbdec_of_checks hk hl]
  refine ⟨fun hr => congrArg _ (ecbdecBody_of_ragged hr), fun h0 h16 => ?_⟩
  rw [ecbdecBody_of_whole h0 h16]
  refine decryption_outcome _ hs hl h0 h16 (decryptedBlocks_length s) fun k hk => ?_
  rw [decryptedBlocks_getD s _ (by omega)]

/-- Settles O46: the plaintext is the decrypted blocks, each XORed with the ciphertext block before it. -/
theorem cbcdecUnchainsAndStrips : Obligations.CbcdecUnchainsAndStrips := by
  refine ⟨encodes_of_encodingFields Laws.EncodingFields.cbcdec rfl rfl, fun s hs hk hv hl => ?_⟩
  rw [exec_cbcdec_of_checks hk hl hv]
  refine ⟨fun hr => congrArg _ (cbcdecBody_of_ragged hr), fun h0 h16 => ?_⟩
  rw [cbcdecBody_of_whole h0 h16]
  refine decryption_outcome _ hs hl h0 h16 (cbcPlaintext_length s) fun k hk => ?_
  rw [cbcPlaintext_getD s _ (by omega), byteAt_xorBytes _ _ (Nat.mod_lt _ (by decide)), byteAt_previous_block]

/-! ### The counter block and the keystream (rules R195, R196) -/

/-- A byte of the counter is a base-256 digit of the block index, at the place the byte order gives it. -/
theorem cntByte_eq_digit (bigEndian : Bool) (i j : Nat) :
    cntByte bigEndian (BitVec.ofNat 64 i) j = BitVec.ofNat 8 (i % 2 ^ 64 / 256 ^ (if bigEndian then 7 - j else j)) := by
  rw [cntByte, BitVec.extractLsb', BitVec.toNat_ofNat, Nat.shiftRight_eq_div_pow, Nat.pow_mul]

/-- Settles O47: eight bytes of nonce, then the digits of the index. -/
theorem counterBlockLayout : Obligations.CounterBlockLayout := by
  refine fun bigEndian nonce i j => ⟨fun hj => ?_, fun hj => ?_⟩
  · rw [byteAt_ctrblock _ _ _ (by omega), if_pos hj]
  · rw [byteAt_ctrblock _ _ _ (by omega), if_neg (by omega), Nat.add_sub_cancel_left, cntByte_eq_digit]

theorem keystreamFrom_length (s : State) (first n : Nat) : (keystreamFrom s first n).length = n := by
  rw [keystreamFrom, List.length_map, List.length_range']

theorem keystreamFrom_getD (s : State) (first : Nat) {n i : Nat} (d : Block) (hi : i < n) :
    (keystreamFrom s first n).getD i d = keystreamBlock (keyed s) (first + i) := by
  simp [keystreamFrom, List.getD, hi]

/-- The generated stream begins at byte position `16 * first`. -/
theorem keystreamFrom_byte (s : State) {first n k : Nat} (h1 : 16 * first ≤ k) (h2 : k < 16 * (first + n)) :
    (joinBlocks (keystreamFrom s first n)).getD (k - 16 * first) 0#8 = ks (keyed s) k := by
  rw [joinBlocks_getD, keystreamFrom_getD s _ _ (by omega), show first + (k - 16 * first) / 16 = k / 16 by omega,
    show (k - 16 * first) % 16 = k % 16 by omega, ks]

/-- S ends holding the last keystream block generated. -/
theorem putResult_keystreamFrom_S (r : List Byte) (s : State) (first n : Nat) :
    (putResult r (keystreamFrom s first n) (keyed s)).S =
      if n = 0 then s.S else keystreamBlock (keyed s) (first + (n - 1)) := by
  cases n with
  | zero => rfl
  | succ n =>
    rw [putResult_S (keystreamFrom_length s first (n + 1)) (zeros 16), keystreamFrom_getD s _ _ (Nat.lt_succ_self n),
      if_neg (Nat.succ_ne_zero n), Nat.succ_sub_one]

/-! ### CTRXOR and CTREDIT: a byte of output for each byte of the message (rules R197, R198) -/

theorem putResult_olen_eq_ilen {r : List Byte} {s : State} (hr : r.length = s.ILEN.toNat) (outs : List Block) :
    (putResult r outs (keyed s)).OLEN = s.ILEN := by
  show BitVec.ofNat 32 r.length = s.ILEN
  rw [hr, BitVec.ofNat_toNat, BitVec.setWidth_eq]

theorem ctrxorOutput_length (s : State) : (ctrxorOutput s).length = s.ILEN.toNat := by
  rw [ctrxorOutput, ctrxorKeystream, List.length_zipWith, message_length, joinBlocks_length, keystreamFrom_length]
  omega

theorem ctrxorOutput_getD (s : State) {k : Nat} (hk : k < s.ILEN.toNat) :
    (ctrxorOutput s).getD k 0#8 = Memory.read s.IBUF k ^^^ ks (keyed s) k := by
  have hlen : k < (joinBlocks (ctrxorKeystream s)).length := by
    rw [ctrxorKeystream, joinBlocks_length, keystreamFrom_length]
    omega
  rw [ctrxorOutput, zipWith_xor_getD _ _ (by rwa [message_length]) hlen, message_getD s hk]
  exact congrArg _ (keystreamFrom_byte s (Nat.zero_le k) (by omega))

/-- CTRXOR's last block is the one that covers the message's last byte. -/
theorem ctrxor_S (s : State) : (putResult (ctrxorOutput s) (ctrxorKeystream s) (keyed s)).S =
    if s.ILEN.toNat = 0 then s.S else keystreamBlock (keyed s) ((s.ILEN.toNat - 1) / 16) := by
  rw [ctrxorKeystream, putResult_keystreamFrom_S]
  by_cases h : s.ILEN.toNat = 0
  · rw [if_pos h, if_pos (by omega)]
  · rw [if_neg h, if_neg (by omega), show 0 + ((s.ILEN.toNat + 15) / 16 - 1) = (s.ILEN.toNat - 1) / 16 by omega]

/-- Settles O48: each byte of the message is XORed with the keystream byte at its position. -/
theorem ctrxorXorsKeystream : Obligations.CtrxorXorsKeystream := by
  refine ⟨encodes_of_encodingFields Laws.EncodingFields.ctrxor rfl rfl, fun s hs hk hn hl => ?_⟩
  have len := ctrxorOutput_length s
  refine ⟨_, exec_ctrxor_of_checks hk hl hn, putResult_olen_eq_ilen len _, fun k hlt => ?_, fun k hge => ?_, ctrxor_S s,
    putResult_frame _ _ _⟩
  · rw [read_putResult len hs, if_pos hlt, ctrxorOutput_getD s hlt]
    rfl
  · rw [read_putResult len hs, if_neg (Nat.not_lt.mpr hge)]

theorem editOutput_length (s : State) : (editOutput s).length = s.ILEN.toNat := by
  rw [editOutput, spliceEdit, List.length_map, List.length_range]
  rfl

/-- A nonempty edit generates the blocks up to the one that covers its last byte. -/
theorem first_add_editBlockCount {s : State} (h : s.XLEN.toNat ≠ 0) :
    s.XOFF.toNat / 16 + editBlockCount s = (s.XOFF.toNat + s.XLEN.toNat - 1) / 16 + 1 := by
  rw [editBlockCount, if_neg h]
  omega

theorem editOutput_getD (s : State) {k : Nat} (hk : k < s.ILEN.toNat) :
    (editOutput s).getD k 0#8 =
      if s.XOFF.toNat ≤ k ∧ k < s.XOFF.toNat + s.XLEN.toNat then
        Memory.read s.XBUF (k - s.XOFF.toNat) ^^^ ks (keyed s) k
      else Memory.read s.IBUF k := by
  have splice : (editOutput s).getD k 0#8 =
      if s.XOFF.toNat ≤ k ∧ k < s.XOFF.toNat + s.XLEN.toNat then
        Memory.read s.XBUF (k - s.XOFF.toNat) ^^^ (joinBlocks (editKeystream s)).getD (k - 16 * (s.XOFF.toNat / 16)) 0#8
      else Memory.read s.IBUF k := by
    simp [editOutput, spliceEdit, keyed, List.getD, hk]
  rw [splice]
  refine ite_congr rfl (fun ⟨h1, h2⟩ => ?_) fun _ => rfl
  have last := first_add_editBlockCount (s := s) (by omega)
  exact congrArg _ (keystreamFrom_byte s (by omega) (by omega))

/-- CTREDIT's last block is the one that covers the edit's last byte. -/
theorem ctredit_S (s : State) : (putResult (editOutput s) (editKeystream s) (keyed s)).S =
    if s.XLEN.toNat = 0 then s.S else keystreamBlock (keyed s) ((s.XOFF.toNat + s.XLEN.toNat - 1) / 16) := by
  rw [editKeystream, putResult_keystreamFrom_S]
  by_cases h : s.XLEN.toNat = 0
  · rw [if_pos h, editBlockCount, if_pos h, if_pos rfl]
  · have last := first_add_editBlockCount h
    rw [if_neg h, if_neg (by omega), show s.XOFF.toNat / 16 + (editBlockCount s - 1) =
      (s.XOFF.toNat + s.XLEN.toNat - 1) / 16 by omega]

/-- Settles O49: inside the edit the new bytes are XORed with the keystream, outside it the message is copied. -/
theorem ctreditSplicesNewBytes : Obligations.CtreditSplicesNewBytes := by
  refine ⟨encodes_of_encodingFields Laws.EncodingFields.ctredit rfl rfl, fun s hs hk hn hl hx he => ?_⟩
  have len := editOutput_length s
  refine ⟨_, exec_ctredit_of_checks hk hl hn hx he, putResult_olen_eq_ilen len _, fun k hlt => ?_, fun k hge => ?_,
    ctredit_S s, putResult_frame _ _ _⟩
  · rw [read_putResult len hs, if_pos hlt, editOutput_getD s hlt]
    rfl
  · rw [read_putResult len hs, if_neg (Nat.not_lt.mpr hge)]

end Sys2Proof.Machine
end

