-- ==== Sys2Proof/Proofs/System.lean ====
section
/-! PROOFS. Proofs/System.lean: the system commands (46_system.md): what NOP leaves, and that its word decodes to it. -/

namespace Sys2Proof.Machine

theorem exec_nop (s : State) : exec .nop s = .next { s with ERR := .ok } := rfl

/-- Settles O17: the zero word has the fields of NOP's row, and NOP only completes, which writes ERR and no other field. -/
theorem nopClearsErr : Obligations.NopClearsErr :=
  ⟨encodes_of_encodingFields Laws.EncodingFields.nop rfl rfl, exec_nop⟩

end Sys2Proof.Machine
end

