-- ==== Sys2Proof/Proofs/IllegalWords.lean ====
section
/-! PROOFS. Proofs/IllegalWords.lean: the words rule R96 lists select no row of the opcode table or fail its checks, so
writing one to CMD raises IllegalCommand and does nothing else (30_encoding.md rules R91 to R96, 60_exceptions.md rule
R230). -/

namespace Sys2Proof.Machine

/-! ### What the rows of the opcode table say of an opcode byte (rules R91, R94) -/

/-- The opcode byte alone determines the row (rule R95). -/
theorem row_eq_of_op_eq {r r' : OpcodeRow} (hr : r ∈ opcodeRows) (hr' : r' ∈ opcodeRows) (h : r.op = r'.op) : r = r' :=
  Option.some.inj ((find_opcodeRow hr).symm.trans (h ▸ find_opcodeRow hr'))

theorem opcodes_of_rows : opcodeRows.map OpcodeRow.op =
    [0x00#8, 0x01#8, 0x10#8, 0x11#8, 0x12#8, 0x20#8, 0x21#8, 0x22#8, 0x23#8, 0x24#8,
      0x30#8, 0x31#8, 0x32#8, 0x33#8, 0x34#8, 0x35#8, 0x36#8, 0x40#8, 0x41#8, 0x50#8, 0x51#8,
      0x60#8, 0x61#8, 0x62#8, 0x63#8, 0x64#8, 0x65#8] := rfl

/-- The commands with an operand `a`: GFMUL, SBOX, ISBOX, RCON and ADDROUNDKEY. -/
theorem op_mem_of_fmt_ne_N : ∀ row ∈ opcodeRows, row.fmt ≠ .N → row.op ∈ [0x10#8, 0x11#8, 0x12#8, 0x23#8, 0x30#8] := by
  decide

/-- The one command with an operand `b`: GFMUL. -/
theorem op_eq_of_fmt_AB : ∀ row ∈ opcodeRows, row.fmt = .AB → row.op = 0x10#8 := by decide

/-- A format that admits a nonzero A field is not N. -/
theorem fmt_ne_N_of_admits {f : Format} {w : Word32} (h : f.admits w = true) (ha : aField w ≠ 0#8) : f ≠ .N := by
  rintro rfl
  simp [Format.admits, ha] at h

/-- Only format AB admits a nonzero B field. -/
theorem fmt_eq_AB_of_admits {f : Format} {w : Word32} (h : f.admits w = true) (hb : bField w ≠ 0#8) : f = .AB := by
  cases f with
  | N => simp [Format.admits, hb] at h
  | A => simp [Format.admits, hb] at h
  | AB => rfl

theorem wf_rcon_iff {a : Byte} : (Instr.rcon a).wf = true ↔ 1 ≤ a.toNat ∧ a.toNat ≤ 10 := by
  simp only [Instr.wf, Bool.and_eq_true, decide_eq_true_eq]

theorem wf_addroundkey_iff {a : Byte} : (Instr.addroundkey a).wf = true ↔ a.toNat ≤ 10 := by
  simp only [Instr.wf, decide_eq_true_eq]

/-! ### What a word that decodes satisfies (rules R95, R96) -/

section
variable {w : Word32} {i : Instr} (hd : decode w = .ok i)
include hd

theorem zField_eq_zero_of_decode : zField w = 0#8 := (decode_eq_ok.mp hd).1

theorem opField_mem_of_decode : opField w ∈ opcodeRows.map OpcodeRow.op := by
  obtain ⟨-, row, hm, ho, -⟩ := decode_eq_ok.mp hd
  exact List.mem_map.mpr ⟨row, hm, ho⟩

theorem opField_mem_of_decode_aField (ha : aField w ≠ 0#8) :
    opField w ∈ [0x10#8, 0x11#8, 0x12#8, 0x23#8, 0x30#8] := by
  obtain ⟨-, row, hm, ho, hadm, -⟩ := decode_eq_ok.mp hd
  exact ho ▸ op_mem_of_fmt_ne_N row hm (fmt_ne_N_of_admits hadm ha)

theorem opField_eq_of_decode_bField (hb : bField w ≠ 0#8) : opField w = 0x10#8 := by
  obtain ⟨-, row, hm, ho, hadm, -⟩ := decode_eq_ok.mp hd
  exact ho ▸ op_eq_of_fmt_AB row hm (fmt_eq_AB_of_admits hadm hb)

/-- A word with a row's opcode byte that decodes gives that row's command, well formed. -/
theorem wf_build_of_decode {row : OpcodeRow} (hm : row ∈ opcodeRows) (ho : opField w = row.op) :
    (row.build (aField w) (bField w)).wf = true := by
  obtain ⟨-, row', hm', ho', -, rfl, hw⟩ := decode_eq_ok.mp hd
  exact row_eq_of_op_eq hm' hm (ho'.trans ho) ▸ hw

theorem aField_bounds_of_decode_rcon (ho : opField w = 0x23#8) : 1 ≤ (aField w).toNat ∧ (aField w).toNat ≤ 10 :=
  wf_rcon_iff.mp (wf_build_of_decode hd (Laws.opcodeRows_mem (k := 8) (by decide)) ho)

theorem aField_le_of_decode_addroundkey (ho : opField w = 0x30#8) : (aField w).toNat ≤ 10 :=
  wf_addroundkey_iff.mp (wf_build_of_decode hd (Laws.opcodeRows_mem (k := 10) (by decide)) ho)

end

/-! ### A write to CMD (rules R62, R90, R96) -/

/-- A step that serves a write to CMD runs the word written, the access gone from the bus and its completion reported. -/
theorem step_cmd_write (s : State) (rest : List BusEvent) (w : Word32) :
    step { s with pending := .write s.params.BASE 4 w :: rest } = command w (served s rest .done) := by
  have hadm : admitted s.params s.params.BASE 4 = some (.reg .CMD) := admit_reg s.params .CMD
  simp only [step, serve, serveWrite, hadm]
  rfl

theorem command_of_not_decodes {w : Word32} (h : ∀ i, decode w ≠ .ok i) (s : State) :
    command w s = .next (raiseIllegal s) := by
  unfold command
  split
  next i hi => exact absurd hi (h i)
  next => rfl

/-- Settles O5: each of the ways to be illegal contradicts what a decoded word satisfies, so the word runs as IllegalCommand,
which writes ERR and no other field. -/
theorem illegalWordRaisesIllegalCommand : Obligations.IllegalWordRaisesIllegalCommand := by
  intro s rest w hillegal
  have hdec : ∀ i, decode w ≠ .ok i := by
    intro i hd
    rcases hillegal with hz | ho | ⟨ha, ho⟩ | ⟨hb, ho⟩ | ⟨ho, ha⟩ | ⟨ho, ha⟩
    · exact hz (zField_eq_zero_of_decode hd)
    · exact ho (opcodes_of_rows ▸ opField_mem_of_decode hd)
    · exact ho (opField_mem_of_decode_aField hd ha)
    · exact ho (opField_eq_of_decode_bField hd hb)
    · have hle := aField_bounds_of_decode_rcon hd ho
      simp only [aField] at hle
      omega
    · exact absurd (aField_le_of_decode_addroundkey hd ho) (Nat.not_le.mpr ha)
  rw [step_cmd_write, command_of_not_decodes hdec]
  rfl

end Sys2Proof.Machine
end

