-- ==== Sys2Proof/Proofs/Field.lean ====
section
/-! PROOFS. Proofs/Field.lean: the field and S-box unit (40_field_sbox.md). Every byte is a sum of doublings of 1, and the
product is linear and passes doubling through either operand, so its laws follow by induction on how a byte is built. The
inverse of a byte is its S-box image with the affine map undone, and so the S-box is the inverse followed by the affine
map. -/

namespace Sys2Proof.Machine

/-! ### The product is linear and commutes with doubling (rule R110) -/

theorem gfmul_xor_right (a b b' : Byte) : gfmul a (b ^^^ b') = gfmul a b ^^^ gfmul a b' := by
  unfold gfmul
  rw [← gfmulLoop_xor_right]
  rfl

theorem gfmul_zero (a : Byte) : gfmul a 0#8 = 0#8 := by
  simpa using gfmul_xor_right a 0#8 0#8

theorem zero_gfmul (b : Byte) : gfmul 0#8 b = 0#8 := by
  simpa using gfmul_xor_left 0#8 0#8 b

theorem gfmul_one (a : Byte) : gfmul a 1#8 = a := by
  simp [gfmul, gfmulLoop]

theorem gfmul_two (a : Byte) : gfmul a 2#8 = xtime a := by
  simp [gfmul, gfmulLoop]

theorem one_gfmul (b : Byte) : gfmul 1#8 b = b := by
  have powers : ∀ i : Fin 8, gfmul 1#8 (BitVec.twoPow 8 i) = BitVec.twoPow 8 i := by
    unfold gfmul
    decide
  refine byte_basis (fun b => gfmul 1#8 b = b) (gfmul_zero 1#8) powers (fun b b' hb hb' => ?_) b
  rw [gfmul_xor_right, hb, hb']

/-- Doubling both the multiplicand and the sum so far doubles the result of the loop. -/
theorem gfmulLoop_xtime (k : Nat) (a b p : Byte) :
    gfmulLoop k (xtime a) b (xtime p) = xtime (gfmulLoop k a b p) := by
  induction k generalizing a b p with
  | zero => rfl
  | succ k ih =>
    simp only [gfmulLoop]
    rw [← ih]
    congr 1
    split
    · rw [xtime_xor]
    · rfl

theorem xtime_gfmul (a b : Byte) : gfmul (xtime a) b = xtime (gfmul a b) := by
  unfold gfmul
  exact gfmulLoop_xtime 8 a b 0#8

theorem gfmul_xtime (a b : Byte) : gfmul a (xtime b) = xtime (gfmul a b) := by
  have powers : ∀ i j : Fin 8, gfmul (BitVec.twoPow 8 i) (xtime (BitVec.twoPow 8 j)) =
      xtime (gfmul (BitVec.twoPow 8 i) (BitVec.twoPow 8 j)) := by
    unfold gfmul
    decide
  refine byte_basis (fun a => gfmul a (xtime b) = xtime (gfmul a b)) ?_ (fun i => ?_) (fun a a' ha ha' => ?_) a
  · rw [zero_gfmul, zero_gfmul]
    rfl
  · refine byte_basis (fun b => gfmul (BitVec.twoPow 8 i) (xtime b) = xtime (gfmul (BitVec.twoPow 8 i) b)) ?_ (powers i)
      (fun b b' hb hb' => ?_) b
    · rw [gfmul_zero]
      exact gfmul_zero _
    · rw [xtime_xor, gfmul_xor_right, gfmul_xor_right, xtime_xor, hb, hb']
  · rw [gfmul_xor_left, gfmul_xor_left, xtime_xor, ha, ha']

/-! ### The laws of the product, by induction on how a byte is built -/

/-- Every byte is built from 0 and 1 by doubling and XOR. -/
theorem byte_induction {P : Byte → Prop} (zero : P 0#8) (one : P 1#8) (double : ∀ a, P a → P (xtime a))
    (xor : ∀ a b, P a → P b → P (a ^^^ b)) (a : Byte) : P a := by
  have doublings (n : Nat) : P (xtime^[n] 1#8) := by
    induction n with
    | zero => exact one
    | succ n ih => rw [Function.iterate_succ_apply']; exact double _ ih
  have power : ∀ i : Fin 8, BitVec.twoPow 8 i = xtime^[i.val] 1#8 := by decide
  exact byte_basis P zero (fun i => power i ▸ doublings i) xor a

theorem gfmul_comm (a b : Byte) : gfmul a b = gfmul b a := by
  induction b using byte_induction with
  | zero => rw [gfmul_zero, zero_gfmul]
  | one => rw [gfmul_one, one_gfmul]
  | double b ih => rw [gfmul_xtime, xtime_gfmul, ih]
  | xor b b' ih ih' => rw [gfmul_xor_right, gfmul_xor_left, ih, ih']

theorem gfmul_assoc (a b c : Byte) : gfmul a (gfmul b c) = gfmul (gfmul a b) c := by
  induction c using byte_induction with
  | zero => rw [gfmul_zero, gfmul_zero, gfmul_zero]
  | one => rw [gfmul_one, gfmul_one]
  | double c ih => rw [gfmul_xtime, gfmul_xtime, gfmul_xtime, ih]
  | xor c c' ih ih' => rw [gfmul_xor_right, gfmul_xor_right, gfmul_xor_right, ih, ih']

/-! ### The two ROMs, the affine map and the field inverse (rules R112, R113, R116) -/

/-- The two ROMs are a permutation of the bytes and its inverse. -/
def sboxPerm : Equiv.Perm Byte where
  toFun := sbox
  invFun := isbox
  left_inv := by
    unfold Function.LeftInverse isbox sbox
    decide
  right_inv := by
    unfold Function.RightInverse Function.LeftInverse isbox sbox
    decide

theorem isbox_sbox (x : Byte) : isbox (sbox x) = x := sboxPerm.left_inv x

theorem sbox_isbox (y : Byte) : sbox (isbox y) = y := sboxPerm.right_inv y

theorem sbox_of_00 : sbox 0x00#8 = 0x63#8 := by
  unfold sbox
  decide

theorem sbox_of_52 : sbox 0x52#8 = 0x00#8 := by
  unfold sbox
  decide

/-- The S-box takes each value once, so only 0x52 goes to 0. -/
theorem sbox_eq_zero_iff (a : Byte) : sbox a = 0#8 ↔ a = 0x52#8 := by
  rw [← sbox_of_52]
  exact sboxPerm.injective.eq_iff

/-- The affine map of rule R116 and its inverse. -/
def affinePerm : Equiv.Perm Byte where
  toFun v := v ^^^ v.rotateLeft 1 ^^^ v.rotateLeft 2 ^^^ v.rotateLeft 3 ^^^ v.rotateLeft 4 ^^^ 0x63#8
  invFun y := y.rotateLeft 1 ^^^ y.rotateLeft 3 ^^^ y.rotateLeft 6 ^^^ 0x05#8
  left_inv := by
    unfold Function.LeftInverse
    decide
  right_inv := by
    unfold Function.RightInverse Function.LeftInverse
    decide

/-- The field inverse of a byte, 0 for 0: the S-box with the affine map undone. -/
def inverseByte (x : Byte) : Byte := affinePerm.symm (sbox x)

/-- The field inverse as a function that gives every nonzero byte an inverse. -/
def fieldInverse : { f : Byte → Byte // ∀ x, x ≠ 0#8 → gfmul x (f x) = 1#8 } where
  val := inverseByte
  property := by
    unfold inverseByte gfmul sbox
    decide

theorem gfmul_inverseByte {x : Byte} (hx : x ≠ 0#8) : gfmul x (inverseByte x) = 1#8 := fieldInverse.property x hx

theorem inverseByte_zero : inverseByte 0#8 = 0#8 := by
  rw [inverseByte, sbox_of_00]
  decide

theorem affinePerm_inverseByte (x : Byte) : affinePerm (inverseByte x) = sbox x := affinePerm.apply_symm_apply _

/-- No byte is its own image or the complement of it. -/
theorem sbox_ne : ∀ a : Byte, sbox a ≠ a ∧ sbox a ≠ a ^^^ 0xFF#8 := by
  unfold sbox
  decide

/-! ### Inverses are unique -/

/-- A byte has at most one inverse: of two, each is the product of both with the byte. -/
theorem gfmul_inverse_unique {a x y : Byte} (hx : gfmul a x = 1#8) (hy : gfmul a y = 1#8) : x = y :=
  calc x = gfmul x (gfmul a y) := by rw [hy, gfmul_one]
    _ = gfmul (gfmul a x) y := by rw [gfmul_assoc, gfmul_comm x a]
    _ = y := by rw [hx, one_gfmul]

/-- The inverse of a byte, when it has one, is the one read off the S-box. -/
theorem eq_inverseByte {x v : Byte} (h : gfmul x v = 1#8) : v = inverseByte x := by
  have hx : x ≠ 0#8 := by
    rintro rfl
    rw [zero_gfmul] at h
    exact absurd h (by decide)
  exact gfmul_inverse_unique h (gfmul_inverseByte hx)

/-! ### The unit's statements -/

theorem exec_gfmul (a b : Byte) (s : State) : exec (.gfmul a b) s = .next { s with RES := gfmul a b, ERR := .ok } := rfl

theorem exec_sbox (a : Byte) (s : State) : exec (.sbox a) s = .next { s with RES := sbox a, ERR := .ok } := rfl

theorem exec_isbox (a : Byte) (s : State) : exec (.isbox a) s = .next { s with RES := isbox a, ERR := .ok } := rfl

/-- Settles O20: the laws by induction on how a byte is built, and the inverse from the S-box. -/
theorem gfmulFieldLaws : Obligations.GfmulFieldLaws := by
  refine fun a b c => ⟨?_, gfmul_comm a b, gfmul_zero a, gfmul_one a, gfmul_xor_right a b c, gfmul_assoc a b c,
    fun ha => ⟨inverseByte a, gfmul_inverseByte ha, fun _ => eq_inverseByte⟩⟩
  rw [gfmul_two, xtime]
  split <;> simp

/-- Settles O19: RES takes the product, and the corner cases are evaluated. -/
theorem gfmulWritesProduct : Obligations.GfmulWritesProduct := by
  refine ⟨fun a b => encodes_of_encodingFields (Laws.EncodingFields.gfmul a b) rfl rfl, exec_gfmul, ?_, ?_, ?_,
    fun _ => rfl⟩
  all_goals unfold gfmul; decide

/-- Settles O21: RES takes the table's byte; the table has one zero, no fixed byte and no complemented one. -/
theorem sboxWritesSubstitute : Obligations.SboxWritesSubstitute := by
  refine ⟨fun a => encodes_of_encodingFields (Laws.EncodingFields.sbox a) rfl rfl, exec_sbox, sbox_of_00, ?_, ?_,
    fun a => ⟨sbox_eq_zero_iff a, sbox_ne a⟩⟩
  all_goals unfold sbox; decide

/-- Settles O22: RES takes the inverse table's byte, and the tables undo each other. -/
theorem isboxWritesInverse : Obligations.IsboxWritesInverse := by
  refine ⟨fun a => encodes_of_encodingFields (Laws.EncodingFields.isbox a) rfl rfl, exec_isbox, ?_, ?_, ?_, ?_,
    fun x => ⟨isbox_sbox x, sbox_isbox x⟩⟩
  all_goals unfold isbox; decide

/-- Settles O23: the inverse is the S-box with the affine map undone, so the affine map gives the S-box back. -/
theorem sboxIsInverseThenAffine : Obligations.SboxIsInverseThenAffine := by
  intro x v h
  have hv : v = inverseByte x := by
    rcases h with h | ⟨rfl, rfl⟩
    · exact eq_inverseByte h
    · exact inverseByte_zero.symm
  rw [hv]
  exact (affinePerm_inverseByte x).symm

end Sys2Proof.Machine
end

