-- ==== Sys2Proof/Proofs/Commands.lean ====
section
/-! PROOFS. Proofs/Commands.lean: everything a command can do, said once (`CommandEnd`), and what follows from it: every
command answers a next state, writes only what rule R51 lists, raises only the errors of rule R234's table, and an error
changes only what rule R224 says (10_state.md, 60_exceptions.md). -/

namespace Sys2Proof.Machine

/-! ### The mode commands by their mode -/

/-- The command of a mode. -/
def Mode.instr : Mode → Instr
  | .ecbenc => .ecbenc
  | .ecbdec => .ecbdec
  | .cbcenc => .cbcenc
  | .cbcdec => .cbcdec
  | .ctrxor => .ctrxor
  | .ctredit => .ctredit

/-- What the command of a mode does after the prologue. -/
def Mode.body : Mode → State → State
  | .ecbenc => ecbencBody
  | .ecbdec => ecbdecBody
  | .cbcenc => cbcencBody
  | .cbcdec => cbcdecBody
  | .ctrxor => ctrxorBody
  | .ctredit => ctreditBody

theorem exec_mode (M : Mode) (s : State) : exec M.instr s = .next (prologue M M.body s) := by
  cases M <;> rfl

/-! ### How a command can end -/

/-- Normally, with an output of at most the message and one block of padding. -/
structure PutMessage (s t : State) : Prop where
  fits : s.ILEN.toNat ≤ s.params.MSG_CAP
  output : ∃ r : List Byte, r.length ≤ s.ILEN.toNat + 16 ∧ t = State.complete (State.putOutput r s)

/-- Normally, with a new S. -/
def WroteS (s t : State) : Prop := ∃ b, t = { s with S := b, ERR := .ok }

/-- Normally, with a new WA. -/
def WroteWA (s t : State) : Prop := ∃ w, t = { s with WA := w, ERR := .ok }

/-- How each command can end: normally, by the one piece of state that it writes, or with one of its errors. -/
def CommandEnd (i : Instr) (s t : State) : Prop :=
  match i with
  | .nop => t = s.complete
  | .clear => t = s.engineReset
  | .gfmul _ _ | .sbox _ | .isbox _ => ∃ b, t = { s with RES := b, ERR := .ok }
  | .wxor | .rotword | .subword => WroteWA s t
  | .rcon _ => WroteWA s t ∨ (i.wf = false ∧ t = raiseIllegal s)
  | .keyexpand => (s.KLEN = 16#8 ∧ t = s.expandKey.complete) ∨ t = raise false .invalidKeyLength s
  | .addroundkey _ => WroteS s t ∨ t = raise false .noKey s ∨ (i.wf = false ∧ t = raiseIllegal s)
  | .subbytes | .invsubbytes | .shiftrows | .invshiftrows | .mixcolumns | .invmixcolumns => WroteS s t
  | .encblock | .decblock => WroteS s t ∨ t = raise false .noKey s
  | .pad => PutMessage s t ∨ t = raise true .rangeError s
  | .strip => PutMessage s t ∨ t = raise true .rangeError s ∨ t = raise true .paddingError s
  | .ecbenc => ModeEnd .ecbenc s t
  | .ecbdec => ModeEnd .ecbdec s t
  | .cbcenc => ModeEnd .cbcenc s t
  | .cbcdec => ModeEnd .cbcdec s t
  | .ctrxor => ModeEnd .ctrxor s t
  | .ctredit => ModeEnd .ctredit s t

/-- RCON by its operand. -/
theorem rcon_end (a : Byte) (s : State) : ∃ t, exec (.rcon a) s = .next t ∧ CommandEnd (.rcon a) s t := by
  by_cases h : 1 ≤ a.toNat ∧ a.toNat ≤ 10
  · exact ⟨_, exec_rcon_of_wf h s, .inl ⟨_, rfl⟩⟩
  · have hw : (Instr.rcon a).wf = false := by rwa [← Bool.not_eq_true, wf_rcon_iff]
    exact ⟨_, exec_rcon_of_not_wf h s, .inr ⟨hw, rfl⟩⟩

/-- KEYEXPAND by the key length. -/
theorem keyexpand_end (s : State) : ∃ t, exec .keyexpand s = .next t ∧ CommandEnd .keyexpand s t := by
  by_cases h : s.KLEN = 16#8
  · exact ⟨_, exec_keyexpand_of_klen h, .inl ⟨h, rfl⟩⟩
  · exact ⟨_, exec_keyexpand_of_klen_ne h, .inr rfl⟩

/-- ADDROUNDKEY by its operand, then by RKV. -/
theorem addroundkey_end (a : Byte) (s : State) :
    ∃ t, exec (.addroundkey a) s = .next t ∧ CommandEnd (.addroundkey a) s t := by
  by_cases ha : a.toNat ≤ 10
  · cases hk : s.RKV with
    | true => exact ⟨_, exec_addroundkey_of_rkv ha hk, .inl ⟨_, rfl⟩⟩
    | false => exact ⟨_, exec_addroundkey_of_not_rkv ha hk, .inr (.inl rfl)⟩
  · have hw : (Instr.addroundkey a).wf = false := by rwa [← Bool.not_eq_true, wf_addroundkey_iff]
    exact ⟨_, exec_addroundkey_of_not_wf (Nat.not_le.mp ha) s, .inr (.inr ⟨hw, rfl⟩)⟩

/-- ENCBLOCK by RKV. -/
theorem encblock_end (s : State) : ∃ t, exec .encblock s = .next t ∧ CommandEnd .encblock s t := by
  cases hk : s.RKV with
  | true => exact ⟨_, exec_encblock_of_rkv hk, .inl ⟨_, rfl⟩⟩
  | false => exact ⟨_, exec_encblock_of_not_rkv hk, .inr rfl⟩

/-- DECBLOCK by RKV. -/
theorem decblock_end (s : State) : ∃ t, exec .decblock s = .next t ∧ CommandEnd .decblock s t := by
  cases hk : s.RKV with
  | true => exact ⟨_, exec_decblock_of_rkv hk, .inl ⟨_, rfl⟩⟩
  | false => exact ⟨_, exec_decblock_of_not_rkv hk, .inr rfl⟩

/-- PAD by the range check. -/
theorem pad_end (s : State) : ∃ t, exec .pad s = .next t ∧ CommandEnd .pad s t := by
  by_cases hl : s.ILEN.toNat ≤ s.params.MSG_CAP
  · refine ⟨_, exec_pad_of_le hl, .inl ⟨hl, _, ?_, rfl⟩⟩
    rw [pad_message_length]
    omega
  · exact ⟨_, exec_pad_of_lt (Nat.not_le.mp hl), .inr rfl⟩

/-- STRIP by the range check, then by the padding. -/
theorem strip_end (s : State) : ∃ t, exec .strip s = .next t ∧ CommandEnd .strip s t := by
  by_cases hl : s.ILEN.toNat ≤ s.params.MSG_CAP
  · refine ⟨_, exec_strip_of_le hl, ?_⟩
    rcases stripToOutput_cases (message s) s with ⟨q, hq, he⟩ | he
    · rw [message_length] at hq
      exact .inl ⟨hl, q, by omega, he⟩
    · exact .inr (.inr he)
  · exact ⟨_, exec_strip_of_lt (Nat.not_le.mp hl), .inr (.inl rfl)⟩

/-- Every command answers a next state, in one of its ways. -/
theorem exec_end (i : Instr) (s : State) : ∃ t, exec i s = .next t ∧ CommandEnd i s t := by
  cases i with
  | nop | clear => exact ⟨_, rfl, rfl⟩
  | gfmul | sbox | isbox => exact ⟨_, rfl, _, rfl⟩
  | wxor => exact ⟨_, exec_wxor s, _, rfl⟩
  | rotword => exact ⟨_, exec_rotword s, _, rfl⟩
  | subword => exact ⟨_, exec_subword s, _, rfl⟩
  | rcon a => exact rcon_end a s
  | keyexpand => exact keyexpand_end s
  | addroundkey a => exact addroundkey_end a s
  | subbytes => exact ⟨_, exec_subbytes s, _, rfl⟩
  | invsubbytes => exact ⟨_, exec_invsubbytes s, _, rfl⟩
  | shiftrows => exact ⟨_, exec_shiftrows s, _, rfl⟩
  | invshiftrows => exact ⟨_, exec_invshiftrows s, _, rfl⟩
  | mixcolumns => exact ⟨_, exec_mixcolumns s, _, rfl⟩
  | invmixcolumns => exact ⟨_, exec_invmixcolumns s, _, rfl⟩
  | encblock => exact encblock_end s
  | decblock => exact decblock_end s
  | pad => exact pad_end s
  | strip => exact strip_end s
  | ecbenc => exact ⟨_, exec_mode .ecbenc s, ecbenc_end s⟩
  | ecbdec => exact ⟨_, exec_mode .ecbdec s, ecbdec_end s⟩
  | cbcenc => exact ⟨_, exec_mode .cbcenc s, cbcenc_end s⟩
  | cbcdec => exact ⟨_, exec_mode .cbcdec s, cbcdec_end s⟩
  | ctrxor => exact ⟨_, exec_mode .ctrxor s, ctrxor_end s⟩
  | ctredit => exact ⟨_, exec_mode .ctredit s, ctredit_end s⟩

theorem commandEnd_of_exec {i : Instr} {s t : State} (h : exec i s = .next t) : CommandEnd i s t := by
  obtain ⟨t', he, hend⟩ := exec_end i s
  cases he.symm.trans h
  exact hend

/-! ### The commands' statements -/

/-- Settles O18: CLEAR's writes are the reset values. -/
theorem clearGivesResetState : Obligations.ClearGivesResetState :=
  ⟨encodes_of_encodingFields Laws.EncodingFields.clear rfl rfl, fun _ => rfl⟩

/-- Settles O55: every command answers next, and so does the step that serves an illegal word. -/
theorem everyCommandAnswersNext : Obligations.EveryCommandAnswersNext := by
  have answers (i : Instr) (s : State) : ∃ t, exec i s = .next t := (exec_end i s).imp fun _ h => h.1
  refine ⟨answers, fun s rest w => ?_⟩
  rw [step_cmd_write, command]
  split
  · exact answers _ _
  · exact ⟨_, rfl⟩

/-- Settles O56: each command's ends write one kind of state. -/
theorem onlyListedCommandsWrite : Obligations.OnlyListedCommandsWrite := by
  intro i s t h
  have e := commandEnd_of_exec h
  cases i with
  | nop | clear =>
    obtain rfl := e
    simp
  | gfmul | sbox | isbox | wxor | rotword | subword | subbytes | invsubbytes | shiftrows | invshiftrows | mixcolumns
  | invmixcolumns =>
    obtain ⟨x, rfl⟩ := e
    simp
  | rcon => rcases e with ⟨w, rfl⟩ | ⟨-, rfl⟩ <;> simp
  | keyexpand => rcases e with ⟨-, rfl⟩ | rfl <;> simp
  | addroundkey => rcases e with ⟨b, rfl⟩ | rfl | ⟨-, rfl⟩ <;> simp
  | encblock | decblock => rcases e with ⟨b, rfl⟩ | rfl <;> simp
  | pad => rcases e with ⟨-, r, -, rfl⟩ | rfl <;> simp
  | strip => rcases e with ⟨-, r, -, rfl⟩ | rfl | rfl <;> simp
  | ecbenc | ecbdec | cbcenc | cbcdec | ctrxor | ctredit =>
    rw [modeEnd_frame e]
    simp

/-- The errors of a mode command: those of its prologue, and PaddingError in the two decryptions. -/
theorem err_of_modeEnd {M : Mode} {s t : State} (h : ModeEnd M s t) :
    t.ERR = .ok ∨ t.ERR = .invalidKeyLength ∨ (t.ERR = .invalidIvOrNonceLength ∧ (M.usesIv = true ∨ M.usesNonce = true)) ∨
      t.ERR = .rangeError ∨ (t.ERR = .paddingError ∧ M ∈ [Mode.ecbdec, .cbcdec]) := by
  rcases h with ⟨-, rfl⟩ | ⟨-, outs, r, -, rfl⟩ | ⟨-, hM, outs, rfl⟩
  · rw [raise_ERR]
    rcases modeCheck_cases M s with hc | hc | hc | hc
    · exact .inl hc
    · exact .inr (.inl hc)
    · exact .inr (.inr (.inl hc))
    · exact .inr (.inr (.inr (.inl hc)))
  · exact .inl rfl
  · exact .inr (.inr (.inr (.inr ⟨rfl, hM⟩)))

/-- Settles O57: each command's ends that are errors are those the table lists. -/
theorem errorsAreThoseOfTheTable : Obligations.ErrorsAreThoseOfTheTable := by
  intro i s t hw h
  have e := commandEnd_of_exec h
  cases i with
  | nop | clear =>
    obtain rfl := e
    simp
  | gfmul | sbox | isbox | wxor | rotword | subword | subbytes | invsubbytes | shiftrows | invshiftrows | mixcolumns
  | invmixcolumns =>
    obtain ⟨x, rfl⟩ := e
    simp
  | rcon =>
    rcases e with ⟨w, rfl⟩ | ⟨hf, -⟩
    · simp
    · simp [hw] at hf
  | keyexpand => rcases e with ⟨-, rfl⟩ | rfl <;> simp
  | addroundkey =>
    rcases e with ⟨b, rfl⟩ | rfl | ⟨hf, -⟩
    · simp
    · simp
    · simp [hw] at hf
  | encblock | decblock => rcases e with ⟨b, rfl⟩ | rfl <;> simp
  | pad => rcases e with ⟨-, r, -, rfl⟩ | rfl <;> simp
  | strip => rcases e with ⟨-, r, -, rfl⟩ | rfl | rfl <;> simp
  | ecbenc | ecbdec | cbcenc | cbcdec | ctrxor | ctredit =>
    rcases err_of_modeEnd e with he | he | ⟨he, hu⟩ | he | ⟨he, hM⟩ <;> simp_all [Mode.usesIv, Mode.usesNonce]

/-- What an error of a mode command leaves (rule R224). -/
theorem modeEnd_error_effects {M : Mode} {s t : State} (h : ModeEnd M s t) (he : t.ERR ≠ .ok) :
    t = { s with ERR := t.ERR, OLEN := t.OLEN, RK := t.RK, RKV := t.RKV, S := t.S } ∧ t.OLEN = 0#32 ∧
      (t.ERR ≠ .paddingError → t.RK = s.RK ∧ t.RKV = s.RKV ∧ t.S = s.S) ∧
      (M ∉ [Mode.ecbdec, .cbcdec] → t.RK = s.RK ∧ t.RKV = s.RKV ∧ t.S = s.S) := by
  rcases h with ⟨-, rfl⟩ | ⟨-, outs, r, -, rfl⟩ | ⟨-, hM, outs, rfl⟩
  · exact ⟨rfl, rfl, fun _ => ⟨rfl, rfl, rfl⟩, fun _ => ⟨rfl, rfl, rfl⟩⟩
  · exact absurd rfl he
  · exact ⟨rfl, rfl, fun h => absurd rfl h, fun h => absurd hM h⟩

/-- Settles O58: an end that is an error writes only ERR, OLEN and, past a decryption's prologue, RK, RKV and S. -/
theorem errorEffects : Obligations.ErrorEffects := by
  intro i s t h he
  have e := commandEnd_of_exec h
  cases i with
  | nop | clear =>
    obtain rfl := e
    exact absurd rfl he
  | gfmul | sbox | isbox | wxor | rotword | subword | subbytes | invsubbytes | shiftrows | invshiftrows | mixcolumns
  | invmixcolumns =>
    obtain ⟨x, rfl⟩ := e
    exact absurd rfl he
  | rcon =>
    rcases e with ⟨w, rfl⟩ | ⟨-, rfl⟩
    · exact absurd rfl he
    · simp [raiseIllegal, raise]
  | keyexpand =>
    rcases e with ⟨-, rfl⟩ | rfl
    · exact absurd rfl he
    · simp [raise]
  | addroundkey =>
    rcases e with ⟨b, rfl⟩ | rfl | ⟨-, rfl⟩
    · exact absurd rfl he
    · simp [raise]
    · simp [raiseIllegal, raise]
  | encblock | decblock =>
    rcases e with ⟨b, rfl⟩ | rfl
    · exact absurd rfl he
    · simp [raise]
  | pad =>
    rcases e with ⟨-, r, -, rfl⟩ | rfl
    · exact absurd rfl he
    · simp [raise]
  | strip =>
    rcases e with ⟨-, r, -, rfl⟩ | rfl | rfl
    · exact absurd rfl he
    · simp [raise]
    · simp [raise]
  | ecbenc | ecbdec | cbcenc | cbcdec | ctrxor | ctredit =>
    obtain ⟨hframe, holen, hpad, hdec⟩ := modeEnd_error_effects e he
    exact ⟨hframe, fun _ => holen, fun hi => absurd (by decide) hi, hpad, fun hi => hdec (by revert hi; decide)⟩

end Sys2Proof.Machine
end

