-- ==== Sys2Proof/Proofs/Encoding.lean ====
section
/-! PROOFS. Proofs/Encoding.lean: the encoder and the decoder undo each other (30_encoding.md rules R90 to R96): every
command's word has the fields of its row, and every row's command encodes to the row's opcode byte and the operands its
format admits. -/

namespace Sys2Proof.Machine

/-- Every command's word has the fields of its row. -/
theorem encodingFields (i : Instr) : Laws.EncodingFields.Statement i := by
  cases i with
  | nop => exact Laws.EncodingFields.nop
  | clear => exact Laws.EncodingFields.clear
  | gfmul a b => exact Laws.EncodingFields.gfmul a b
  | sbox a => exact Laws.EncodingFields.sbox a
  | isbox a => exact Laws.EncodingFields.isbox a
  | wxor => exact Laws.EncodingFields.wxor
  | rotword => exact Laws.EncodingFields.rotword
  | subword => exact Laws.EncodingFields.subword
  | rcon a => exact Laws.EncodingFields.rcon a
  | keyexpand => exact Laws.EncodingFields.keyexpand
  | addroundkey a => exact Laws.EncodingFields.addroundkey a
  | subbytes => exact Laws.EncodingFields.subbytes
  | invsubbytes => exact Laws.EncodingFields.invsubbytes
  | shiftrows => exact Laws.EncodingFields.shiftrows
  | invshiftrows => exact Laws.EncodingFields.invshiftrows
  | mixcolumns => exact Laws.EncodingFields.mixcolumns
  | invmixcolumns => exact Laws.EncodingFields.invmixcolumns
  | encblock => exact Laws.EncodingFields.encblock
  | decblock => exact Laws.EncodingFields.decblock
  | pad => exact Laws.EncodingFields.pad
  | strip => exact Laws.EncodingFields.strip
  | ecbenc => exact Laws.EncodingFields.ecbenc
  | ecbdec => exact Laws.EncodingFields.ecbdec
  | cbcenc => exact Laws.EncodingFields.cbcenc
  | cbcdec => exact Laws.EncodingFields.cbcdec
  | ctrxor => exact Laws.EncodingFields.ctrxor
  | ctredit => exact Laws.EncodingFields.ctredit

/-- Settles O1: the word has the fields of the command's row, which is all that the decoder asks of a well-formed one. -/
theorem decodeOfEncode : Obligations.DecodeOfEncode := by
  intro i hw
  obtain ⟨hdecode, -⟩ := encodes_of_encodingFields (encodingFields i) hw rfl
  exact hdecode

/-- The command of a row, for operands the row's format admits, encodes to the row's opcode byte with these operands. -/
theorem encode_build {row : OpcodeRow} (hm : row ∈ opcodeRows) {a b : Byte}
    (ha : row.fmt.admits (packWord row.op a b) = true) : encode (row.build a b) = packWord row.op a b := by
  revert row
  simp +contextual [opcodeRows, opcodeRowsField, opcodeRowsWord, opcodeRowsRounds, opcodeRowsModes, Format.admits, encode]

/-- Settles O2: a word that decodes is packed from its row's opcode byte and its operand fields, and so is the encoding of
the row's command. -/
theorem encodeOfDecode : Obligations.EncodeOfDecode := by
  intro w i hd
  obtain ⟨hz, row, hm, ho, ha, rfl, hw⟩ := decode_eq_ok.mp hd
  have hpack : packWord row.op (aField w) (bField w) = w := ho ▸ packWord_fields hz
  exact ⟨hw, (encode_build hm (hpack.symm ▸ ha)).trans hpack⟩

/-- Settles O4: fourteen words, each decoded by evaluation. -/
theorem sampleWordsDecode : Obligations.SampleWordsDecode := by
  unfold Obligations.SampleWordsDecode
  decide

end Sys2Proof.Machine
end

