-- ==== Sys2Proof/Proofs/Bus.lean ====
section
/-! PROOFS. Proofs/Bus.lean: what a step does with the access at the head of the bus (20_memory.md rules R60 to R66, R70):
a read answers and changes nothing, a write stores in its register or array, an access where nothing stands leaves the
engine as it was, and a reset leaves the reset state (70_reset_and_hazards.md rules R260 to R263). -/

namespace Sys2Proof.Machine

/-- The low byte of a word, as the model stores it and as the rules write it. -/
theorem setWidth_eq_low_byte (v : Word32) : v.setWidth 8 = v.extractLsb' 0 8 :=
  BitVec.setWidth_eq_extractLsb' (by decide)

/-! ### The step that serves an access, by where the access is admitted -/

section
variable (s : State) (rest : List BusEvent) (v : Word32)

theorem step_read_reg (r : Reg) : step { s with pending := .read (s.params.BASE + r.offset) 4 :: rest } =
    .next (served s rest (.word (s.readReg r))) := by
  simp only [step, serve, serveRead, admit_reg]
  cases r <;> rfl

theorem step_write_reg {r : Reg} (hr : r ≠ .CMD) :
    step { s with pending := .write (s.params.BASE + r.offset) 4 v :: rest } =
      .next ((served s rest .done).writeReg r v) := by
  simp only [step, serve, serveWrite, admit_reg]
  cases r with
  | CMD => exact absurd rfl hr
  | STATUS | RES | KLEN | IVLEN | NLEN | ILEN | OLEN | XLEN | XOFF => rfl

variable {A : Arr} {i : Nat} (hi : i < A.size s.params) (hp : s.params.Legal ∨ A ∉ [Arr.IBUF, .OBUF, .XBUF])
include hi hp

theorem step_read_byte : step { s with pending := .read (s.params.BASE + A.offset + i) 1 :: rest } =
    .next (served s rest (.byte (s.readByte A i))) := by
  simp only [step, serve, serveRead, admit_byte s.params A hi hp]
  cases A <;> rfl

theorem step_write_byte : step { s with pending := .write (s.params.BASE + A.offset + i) 1 v :: rest } =
    .next ((served s rest .done).writeByte A i (v.extractLsb' 0 8)) := by
  simp only [step, serve, serveWrite, admit_byte s.params A hi hp, setWidth_eq_low_byte]
  cases A <;> rfl

end

/-- An access where nothing stands is not admitted. -/
theorem admitted_of_unmapped {p : Params} {addr n : Nat} (h : Unmapped p addr n) : admitted p addr n = none := by
  obtain ⟨noReg, noByte⟩ := h
  rw [Option.eq_none_iff_forall_ne_some]
  intro l hl
  rcases admit_cases hl with ⟨r, -, hn, ha⟩ | ⟨A, i, -, hn, hi, ha⟩
  · exact noReg hn r.offset (by cases r <;> decide) ha
  · refine noByte hn (A.offset, A.size p) (by cases A <;> simp [Arr.offset, Arr.size]) ⟨?_, ?_⟩ <;> omega

/-! ### The accesses' statements -/

/-- Settles O6: a write to CMD runs the word written, and a word that decodes runs its command. -/
theorem stepRunsDecodedCommand : Obligations.StepRunsDecodedCommand := by
  refine ⟨fun s rest w i hd => ?_, fun s hs => ?_⟩
  · rw [step_cmd_write, command, hd]
  · rw [step, hs]

/-- Settles O7: each offset is a register's, and each value what the register reads. -/
theorem registerReadsReturnTheirValue : Obligations.RegisterReadsReturnTheirValue := by
  intro s rest off v h
  have reg : ∃ r : Reg, off = r.offset ∧ v = s.readReg r := by
    simp only [List.mem_cons, Prod.mk.injEq, List.not_mem_nil, or_false] at h
    rcases h with h | h | h | h | h | h | h | h | h | h
    · exact ⟨.CMD, h⟩
    · exact ⟨.STATUS, h⟩
    · exact ⟨.RES, h⟩
    · exact ⟨.KLEN, h⟩
    · exact ⟨.IVLEN, h⟩
    · exact ⟨.NLEN, h⟩
    · exact ⟨.ILEN, h⟩
    · exact ⟨.OLEN, h⟩
    · exact ⟨.XLEN, h⟩
    · exact ⟨.XOFF, h⟩
  obtain ⟨r, rfl, rfl⟩ := reg
  exact step_read_reg s rest r

/-- Settles O9: each offset is an array's. -/
theorem byteReadsReturnTheirByte : Obligations.ByteReadsReturnTheirByte := by
  intro s rest i hp reads
  have read (A : Arr) (hi : i < A.size s.params) : reads A.offset (s.readByte A i) :=
    step_read_byte s rest hi (.inl hp)
  exact ⟨read .S, read .WA, read .WB, read .KEYBUF, read .IVBUF, read .NBUF, read .RK, read .IBUF, read .OBUF, read .XBUF⟩

/-- Settles O10: each offset is a register's, and the register stores the bits its rule names. -/
theorem registerWritesStoreTheirBits : Obligations.RegisterWritesStoreTheirBits := by
  intro s rest v writes
  have write (r : Reg) (hr : r ≠ .CMD) : writes r.offset ((served s rest .done).writeReg r v) :=
    step_write_reg s rest v hr
  rw [← setWidth_eq_low_byte]
  exact ⟨write .STATUS nofun, write .RES nofun, write .KLEN nofun, write .IVLEN nofun, write .NLEN nofun,
    write .ILEN nofun, write .OLEN nofun, write .XLEN nofun, write .XOFF nofun⟩

/-- Settles O11: each offset is an array's, and the array takes one byte. -/
theorem byteWritesToSmallArrays : Obligations.ByteWritesToSmallArrays := by
  intro s rest i v writes
  have write (A : Arr) (hi : i < A.size s.params) (hA : A ∉ [Arr.IBUF, .OBUF, .XBUF]) :
      writes A.offset ((served s rest .done).writeByte A i (v.extractLsb' 0 8)) :=
    step_write_byte s rest v hi (.inr hA)
  refine ⟨fun hi => ⟨_, fun k hk => ?_, write .S hi (by decide)⟩, fun hi => ⟨_, fun k hk => ?_, write .WA hi (by decide)⟩,
    fun hi => ⟨_, fun k hk => ?_, write .WB hi (by decide)⟩, fun hi => ⟨_, fun k hk => ?_, write .KEYBUF hi (by decide)⟩,
    fun hi => ⟨_, fun k hk => ?_, write .IVBUF hi (by decide)⟩, fun hi => ⟨_, fun k hk => ?_, write .NBUF hi (by decide)⟩,
    fun hi => write .RK hi (by decide)⟩
  all_goals exact byteAt_setByte _ i k _ hk

/-- Settles O12: each offset is a buffer's, and the buffer, in canonical form, takes one byte. -/
theorem byteWritesToBuffers : Obligations.ByteWritesToBuffers := by
  intro s rest i v hs writes
  have write (A : Arr) (hi : i < A.size s.params) :
      writes A.offset ((served s rest .done).writeByte A i (v.extractLsb' 0 8)) :=
    step_write_byte s rest v hi (.inl hs.paramsLegal)
  exact ⟨fun hi => ⟨_, fun k => read_write hs.ibufCanonical i k _, write .IBUF hi⟩,
    fun hi => ⟨_, fun k => read_write hs.xbufCanonical i k _, write .XBUF hi⟩, write .OBUF⟩

/-- Settles O13: no location takes the access, so the answer is that of BUS_FAULT_RESPONSE. -/
theorem unadmittedAccessLeavesEngine : Obligations.UnadmittedAccessLeavesEngine := by
  intro s rest addr n v hu reads writes
  have hadm := admitted_of_unmapped hu
  have hreads : reads = notAdmitted .zeroData { s with pending := rest } := by
    simp only [reads, step, serve, serveRead, hadm]
  have hwrites : writes = notAdmitted .done { s with pending := rest } := by
    simp only [writes, step, serve, serveWrite, hadm]
  rw [hreads, hwrites]
  simp only [notAdmitted]
  refine ⟨fun h => ?_, fun h => ?_, fun h => ?_, fun h => ?_⟩ <;> rw [h] <;> exact ⟨rfl, rfl⟩

/-- An access that is not admitted and does not stop the machine only answers. -/
theorem reply_of_notAdmitted {seen : Reply} {s t : State} (h : notAdmitted seen s = .next t) : ∃ r, t = State.reply r s := by
  unfold notAdmitted at h
  split at h
  · cases h
  · exact ⟨_, (Host.Outcome.next.inj h).symm⟩
  · exact ⟨_, (Host.Outcome.next.inj h).symm⟩
  · cases h

/-- A read that does not stop the machine only answers. -/
theorem reply_of_serveRead {addr n : Nat} {s t : State} (h : serveRead addr n s = .next t) : ∃ r, t = State.reply r s := by
  unfold serveRead at h
  split at h
  · exact ⟨_, (Host.Outcome.next.inj h).symm⟩
  · exact ⟨_, (Host.Outcome.next.inj h).symm⟩
  · exact reply_of_notAdmitted h

/-- Settles O14: a read only answers, wherever it goes. -/
theorem readsHaveNoSideEffects : Obligations.ReadsHaveNoSideEffects := by
  intro s t rest addr n h
  obtain ⟨r, rfl⟩ := reply_of_serveRead h
  exact ⟨r, rfl⟩

/-! ### STATUS and the reset state -/

/-- STATUS bit by bit (rule R25). -/
theorem statusWord_getLsbD (s : State) (i : Nat) : s.statusWord.getLsbD i =
    if i < 4 then s.ERR.code.getLsbD i else if i = 8 then s.RKV else false := by
  unfold State.statusWord
  simp only [BitVec.getLsbD_append]
  grind

/-- Settles O8: bit by bit, STATUS is the code of ERR and, in bit 8, RKV. -/
theorem statusWordLayout : Obligations.StatusWordLayout := by
  intro s
  have code : s.statusWord.extractLsb' 0 4 = s.ERR.code := by
    ext i hi
    simp [statusWord_getLsbD, hi]
  refine ⟨?_, ?_, fun i h4 h8 => ?_⟩
  · rw [code]
    cases s.ERR <;> decide
  · rw [statusWord_getLsbD, if_neg (by decide), if_pos rfl]
  · rw [statusWord_getLsbD, if_neg (by omega), if_neg h8]

theorem readByte_resetWith (p : Params) (A : Arr) (i : Nat) : (State.resetWith p).readByte A i = 0#8 := by
  cases A <;> simp [State.readByte]

theorem readReg_resetWith (p : Params) (r : Reg) : (State.resetWith p).readReg r = 0#32 := by
  cases r with
  | STATUS => show (0#23 ++ 0#1 ++ 0#4 ++ 0#4 : Word32) = 0#32; decide
  | CMD | RES | KLEN | IVLEN | NLEN | ILEN | OLEN | XLEN | XOFF => rfl

/-- Settles O15: both events leave the reset state, and it reads 0 everywhere. -/
theorem resetLeavesResetState : Obligations.ResetLeavesResetState :=
  ⟨fun _ _ _ => ⟨rfl, rfl⟩, fun p => ⟨readByte_resetWith p, readReg_resetWith p, rfl, rfl⟩⟩

end Sys2Proof.Machine
end

