-- ==== Sys2Proof/Proofs/Invariant.lean ====
section
/-! PROOFS. Proofs/Invariant.lean: every way a step can end keeps the invariant: a command's end, a host's write, a reset
and an answer (10_state.md rules R28, R31, R32; 20_memory.md rule R72; 70_reset_and_hazards.md rule R261). -/

namespace Sys2Proof.Machine

/-! ### The state after reset -/

theorem resetWith_inv {p : Params} (hp : p.Legal) : (State.resetWith p).Inv where
  paramsLegal := hp
  ibufCanonical := ⟨List.Pairwise.nil, nofun⟩
  obufCanonical := ⟨List.Pairwise.nil, nofun⟩
  xbufCanonical := ⟨List.Pairwise.nil, nofun⟩
  ibufWithin := nofun
  obufWithin := nofun
  xbufWithin := nofun
  keyValid := nofun
  olenBounded := Nat.zero_le _

/-- Settles O60: the buffers are empty, RKV and OLEN are 0. -/
theorem resetMeetsInvariant : Obligations.ResetMeetsInvariant :=
  ⟨resetWith_inv (by decide), fun _ => resetWith_inv⟩

/-! ### What keeps the invariant -/

/-- The state the invariant speaks of. -/
def invState (s : State) : Params × Memory × Memory × Memory × Bool × Byte × Schedule × Block × Word32 :=
  (s.params, s.IBUF, s.OBUF, s.XBUF, s.RKV, s.KLEN, s.RK, s.KEYBUF, s.OLEN)

/-- A change of any other state keeps the invariant. -/
theorem inv_of_same {s t : State} (hs : s.Inv) (h : invState t = invState s) : t.Inv := by
  simp only [invState, Prod.mk.injEq] at h
  obtain ⟨hp, hi, ho, hx, hv, hk, hr, hb, hl⟩ := h
  constructor
  · rw [hp]; exact hs.paramsLegal
  · rw [hi]; exact hs.ibufCanonical
  · rw [ho]; exact hs.obufCanonical
  · rw [hx]; exact hs.xbufCanonical
  · rw [hp, hi]; exact hs.ibufWithin
  · rw [hp, ho]; exact hs.obufWithin
  · rw [hp, hx]; exact hs.xbufWithin
  · rw [hv, hk, hr, hb]; exact hs.keyValid
  · rw [hp, hl]; exact hs.olenBounded

section
variable {s : State} (hs : s.Inv)
include hs

theorem engineReset_inv : s.engineReset.Inv :=
  inv_of_same (resetWith_inv hs.paramsLegal) rfl

theorem raise_inv (o : Bool) (e : Err) : (raise o e s).Inv :=
  { hs with
    olenBounded := by
      cases o
      · exact hs.olenBounded
      · exact Nat.zero_le _ }

/-- An output of at most the message's length and one block fits OBUF. -/
theorem putOutput_inv {r : List Byte} (hl : s.ILEN.toNat ≤ s.params.MSG_CAP) (hr : r.length ≤ s.ILEN.toNat + 16) :
    (State.putOutput r s).Inv := by
  obtain ⟨-, -, hcap⟩ := hs.paramsLegal
  exact { hs with
    obufCanonical := writeBytes_canonical r hs.obufCanonical 0
    obufWithin := writeBytes_within r hs.obufWithin 0 (by omega)
    olenBounded := by
      rw [olen_putOutput s (by omega), putOutput_params]
      omega }

/-- The expanded key is that of KEYBUF, which holds 16 bytes. -/
theorem expandKey_inv (hk : s.KLEN = 16#8) : s.expandKey.Inv :=
  { hs with keyValid := fun _ => ⟨hk, rfl⟩ }

/-- A host's write to KEYBUF or KLEN makes the expanded key invalid, whatever it writes. -/
theorem clearRkv_inv (k : Block) (n : Byte) : (State.clearRkv { s with KEYBUF := k, KLEN := n }).Inv :=
  { hs with keyValid := nofun }

end

/-! ### A command -/

theorem modeEnd_inv {M : Mode} {s t : State} (hs : s.Inv) (h : ModeEnd M s t) : t.Inv := by
  rcases h with ⟨-, rfl⟩ | ⟨hc, outs, r, hr, rfl⟩ | ⟨hc, -, outs, rfl⟩
  · exact raise_inv hs _ _
  · have ran : (State.ranBlocks outs s.expandKey).Inv := inv_of_same (expandKey_inv hs (klen_of_modeCheck hc)) rfl
    exact inv_of_same (putOutput_inv ran (ilen_of_modeCheck hc) hr) rfl
  · have ran : (State.ranBlocks outs s.expandKey).Inv := inv_of_same (expandKey_inv hs (klen_of_modeCheck hc)) rfl
    exact raise_inv ran _ _

theorem putMessage_inv {s t : State} (hs : s.Inv) (h : PutMessage s t) : t.Inv := by
  obtain ⟨hl, r, hr, rfl⟩ := h
  exact inv_of_same (putOutput_inv hs hl hr) rfl

theorem commandEnd_inv {i : Instr} {s t : State} (hs : s.Inv) (e : CommandEnd i s t) : t.Inv := by
  cases i with
  | nop =>
    obtain rfl := e
    exact inv_of_same hs rfl
  | clear =>
    obtain rfl := e
    exact engineReset_inv hs
  | gfmul | sbox | isbox | wxor | rotword | subword | subbytes | invsubbytes | shiftrows | invshiftrows | mixcolumns
  | invmixcolumns =>
    obtain ⟨x, rfl⟩ := e
    exact inv_of_same hs rfl
  | rcon =>
    rcases e with ⟨w, rfl⟩ | ⟨-, rfl⟩
    · exact inv_of_same hs rfl
    · exact raise_inv hs _ _
  | keyexpand =>
    rcases e with ⟨hk, rfl⟩ | rfl
    · exact inv_of_same (expandKey_inv hs hk) rfl
    · exact raise_inv hs _ _
  | addroundkey =>
    rcases e with ⟨b, rfl⟩ | rfl | ⟨-, rfl⟩
    · exact inv_of_same hs rfl
    · exact raise_inv hs _ _
    · exact raise_inv hs _ _
  | encblock | decblock =>
    rcases e with ⟨b, rfl⟩ | rfl
    · exact inv_of_same hs rfl
    · exact raise_inv hs _ _
  | pad =>
    rcases e with hput | rfl
    · exact putMessage_inv hs hput
    · exact raise_inv hs _ _
  | strip =>
    rcases e with hput | rfl | rfl
    · exact putMessage_inv hs hput
    · exact raise_inv hs _ _
    · exact raise_inv hs _ _
  | ecbenc | ecbdec | cbcenc | cbcdec | ctrxor | ctredit => exact modeEnd_inv hs e

theorem command_inv {w : Word32} {s t : State} (hs : s.Inv) (h : command w s = .next t) : t.Inv := by
  unfold command at h
  split at h
  · exact commandEnd_inv hs (commandEnd_of_exec h)
  · cases h
    exact raise_inv hs _ _

/-! ### An access and a reset -/

section
variable {s : State} (hs : s.Inv)
include hs

theorem reply_inv (r : Reply) : (State.reply r s).Inv := inv_of_same hs rfl

theorem writeReg_inv (r : Reg) (v : Word32) : (s.writeReg r v).Inv := by
  cases r with
  | KLEN => exact clearRkv_inv hs s.KEYBUF _
  | CMD | STATUS | RES | IVLEN | NLEN | ILEN | OLEN | XLEN | XOFF => exact inv_of_same hs rfl

theorem writeByte_inv {A : Arr} {i : Nat} (hi : i < A.size s.params) (b : Byte) : (s.writeByte A i b).Inv := by
  cases A with
  | KEYBUF => exact clearRkv_inv hs _ s.KLEN
  | IBUF =>
    exact { hs with
      ibufCanonical := write_canonical hs.ibufCanonical i b
      ibufWithin := write_within hs.ibufWithin hi b }
  | XBUF =>
    exact { hs with
      xbufCanonical := write_canonical hs.xbufCanonical i b
      xbufWithin := write_within hs.xbufWithin hi b }
  | S | WA | WB | IVBUF | NBUF | RK | OBUF => exact inv_of_same hs rfl

theorem serveWrite_inv {addr n : Nat} {v : Word32} {t : State} (h : serveWrite addr n v s = .next t) : t.Inv := by
  unfold serveWrite at h
  split at h
  · exact command_inv (reply_inv hs _) h
  · cases h
    exact reply_inv (writeReg_inv hs _ _) _
  · next A i hadm =>
    cases h
    rcases admit_cases hadm with ⟨r, hr, -⟩ | ⟨A', i', hA, -, hi, -⟩
    · cases hr
    · cases hA
      exact reply_inv (writeByte_inv hs hi _) _
  · obtain ⟨r, rfl⟩ := reply_of_notAdmitted h
    exact reply_inv hs r

theorem serve_inv {ev : BusEvent} {t : State} (h : serve ev s = .next t) : t.Inv := by
  cases ev with
  | read addr n =>
    obtain ⟨r, rfl⟩ := reply_of_serveRead h
    exact reply_inv hs r
  | write addr n v => exact serveWrite_inv hs h
  | reset =>
    cases h
    exact engineReset_inv hs
  | resetDuring w =>
    cases h
    exact engineReset_inv hs

end

/-- Settles O59: a step serves the next access or reset, if there is one, and serving keeps the invariant. -/
theorem stepKeepsInvariant : Obligations.StepKeepsInvariant := by
  intro s t hs h
  unfold step at h
  split at h
  · cases h
    exact hs
  · next ev rest _ =>
    have popped : State.Inv { s with pending := rest } := inv_of_same hs rfl
    exact serve_inv popped h

end Sys2Proof.Machine
end

