-- ==== Sys2Proof/Proofs/Inverses.lean ====
section
/-! PROOFS. Proofs/Inverses.lean: each round primitive undoes its inverse, so decryption passes back through the blocks of
encryption and encryption through those of decryption; and the rounds run by hand are those of ENCBLOCK
(42_state_rounds.md, 43_block_cipher.md). -/

namespace Sys2Proof.Machine

/-! ### The round primitives (rules R140, R142, R145, R148) -/

theorem addroundkey_cancel (s k : Block) : addroundkey (addroundkey s k) k = s := xorBytes_cancel s k

theorem invsubbytes_subbytes (s : Block) : invsubbytes (subbytes s) = s :=
  bytes_ext fun i hi => by rw [byteAt_invsubbytes _ hi, byteAt_subbytes _ hi, isbox_sbox]

theorem subbytes_invsubbytes (s : Block) : subbytes (invsubbytes s) = s :=
  bytes_ext fun i hi => by rw [byteAt_subbytes _ hi, byteAt_invsubbytes _ hi, sbox_isbox]

theorem invshiftrows_shiftrows (s : Block) : invshiftrows (shiftrows s) = s :=
  bytes_ext fun i hi => by
    rw [byteAt_invshiftrows _ hi, byteAt_shiftrows _ (by omega)]
    congr 1
    omega

theorem shiftrows_invshiftrows (s : Block) : shiftrows (invshiftrows s) = s :=
  bytes_ext fun i hi => by
    rw [byteAt_shiftrows _ hi, byteAt_invshiftrows _ (by omega)]
    congr 1
    omega

theorem shiftrows_subbytes (s : Block) : shiftrows (subbytes s) = subbytes (shiftrows s) :=
  bytes_ext fun i hi => by
    rw [byteAt_shiftrows _ hi, byteAt_subbytes _ (by omega), byteAt_subbytes _ hi, byteAt_shiftrows _ hi]

theorem invshiftrows_subbytes (s : Block) : invshiftrows (subbytes s) = subbytes (invshiftrows s) :=
  bytes_ext fun i hi => by
    rw [byteAt_invshiftrows _ hi, byteAt_subbytes _ (by omega), byteAt_subbytes _ hi, byteAt_invshiftrows _ hi]

/-! ### MixColumns and its inverse: the two matrices are inverse (rule R148) -/

/-- Entry `(r, k)` of the product of two matrices. -/
def productEntry (M N : List (List Byte)) (r k : Nat) : Byte :=
  gfmul (entry M r 0) (entry N 0 k) ^^^ gfmul (entry M r 1) (entry N 1 k) ^^^
    gfmul (entry M r 2) (entry N 2 k) ^^^ gfmul (entry M r 3) (entry N 3 k)

/-- The product of two matrices is the identity. -/
def MatricesInvert (M N : List (List Byte)) : Prop :=
  ∀ r < 4, ∀ k < 4, productEntry M N r k = if r = k then 1#8 else 0#8

theorem invMixMatrix_mixMatrix : MatricesInvert invMixMatrix mixMatrix := by
  unfold MatricesInvert productEntry gfmul
  decide

theorem mixMatrix_invMixMatrix : MatricesInvert mixMatrix invMixMatrix := by
  unfold MatricesInvert productEntry gfmul
  decide

/-- The columns `N s` multiplied by `M` are the columns of `s` multiplied by the product. -/
theorem mixByte_mixByte {M N : List (List Byte)} {s t : Block} {c : Nat}
    (ht : ∀ j < 4, byteAt t (4 * c + j) = mixByte N s c j) (r : Nat) :
    mixByte M t c r = gfmul (productEntry M N r 0) (byteAt s (4 * c)) ^^^
      gfmul (productEntry M N r 1) (byteAt s (4 * c + 1)) ^^^ gfmul (productEntry M N r 2) (byteAt s (4 * c + 2)) ^^^
      gfmul (productEntry M N r 3) (byteAt s (4 * c + 3)) := by
  have h0 : byteAt t (4 * c) = mixByte N s c 0 := ht 0 (by decide)
  rw [mixByte, h0, ht 1 (by decide), ht 2 (by decide), ht 3 (by decide)]
  simp only [mixByte, productEntry, gfmul_xor_right, gfmul_xor_left, gfmul_assoc]
  ac_rfl

/-- A matrix undoes its inverse on every column. -/
theorem mixByte_of_invert {M N : List (List Byte)} (h : MatricesInvert M N) {s t : Block} {c r : Nat} (hr : r < 4)
    (ht : ∀ j < 4, byteAt t (4 * c + j) = mixByte N s c j) : mixByte M t c r = byteAt s (4 * c + r) := by
  rw [mixByte_mixByte ht, h r hr 0 (by decide), h r hr 1 (by decide), h r hr 2 (by decide), h r hr 3 (by decide)]
  interval_cases r <;> simp [one_gfmul, zero_gfmul]

theorem invmixcolumns_mixcolumns (s : Block) : invmixcolumns (mixcolumns s) = s :=
  bytes_ext fun i hi => by
    rw [byteAt_invmixcolumns _ hi, mixByte_of_invert invMixMatrix_mixMatrix (Nat.mod_lt i (by decide))
      fun j hj => byteAt_mixcolumns_column s (by omega) hj, Nat.div_add_mod]

theorem mixcolumns_invmixcolumns (s : Block) : mixcolumns (invmixcolumns s) = s :=
  bytes_ext fun i hi => by
    rw [byteAt_mixcolumns _ hi, mixByte_of_invert mixMatrix_invMixMatrix (Nat.mod_lt i (by decide))
      fun j hj => byteAt_invmixcolumns_column s (by omega) hj, Nat.div_add_mod]

/-- Settles O34: byte by byte, and for the columns by the product of the matrices. -/
theorem roundPrimitivesInvert : Obligations.RoundPrimitivesInvert := fun s k =>
  ⟨addroundkey_cancel s k, invsubbytes_subbytes s, subbytes_invsubbytes s, invshiftrows_shiftrows s,
    shiftrows_invshiftrows s, invmixcolumns_mixcolumns s, mixcolumns_invmixcolumns s, shiftrows_subbytes s,
    invshiftrows_subbytes s⟩

/-! ### Decryption and encryption (rules R160, R161) -/

/-- Decrypting an encrypted block, the block before round `9 - k` of decryption is, up to ShiftRows and SubBytes, the block
after round `9 - k` of encryption. -/
theorem blockAfterInvRound_encblock (s : Block) (rk : Schedule) {k : Nat} (hk : k ≤ 9) :
    blockAfterInvRound rk (encblock s rk) (9 - k + 1) = shiftrows (subbytes (encRounds rk s (9 - k))) := by
  induction k with
  | zero => rw [blockAfterInvRound_ten, encblock_eq_encRounds, encRounds_ten, addroundkey_cancel]
  | succ k ih =>
    have round : 9 - k = 9 - (k + 1) + 1 := by omega
    have hprev := ih (by omega)
    rw [round] at hprev
    rw [blockAfterInvRound_of_pos rk _ (by omega) (by omega), hprev, invshiftrows_shiftrows, invsubbytes_subbytes,
      encRounds_succ_of_lt rk s (by omega), addroundkey_cancel, invmixcolumns_mixcolumns]

theorem decblock_encblock (s : Block) (rk : Schedule) : decblock (encblock s rk) rk = s := by
  have last : blockAfterInvRound rk (encblock s rk) 1 = shiftrows (subbytes (encRounds rk s 0)) :=
    blockAfterInvRound_encblock s rk (le_refl 9)
  rw [decblock_eq_blockAfterInvRound, blockAfterInvRound_zero, last, invshiftrows_shiftrows, invsubbytes_subbytes,
    encRounds_zero, addroundkey_cancel]

/-- Encrypting a decrypted block, the block after round `r` of encryption is, up to InvShiftRows and InvSubBytes, the block
after round `r + 1` of decryption. -/
theorem encRounds_decblock (s : Block) (rk : Schedule) {r : Nat} (hr : r ≤ 9) :
    encRounds rk (decblock s rk) r = invsubbytes (invshiftrows (blockAfterInvRound rk s (r + 1))) := by
  induction r with
  | zero => rw [encRounds_zero, decblock_eq_blockAfterInvRound, blockAfterInvRound_zero, addroundkey_cancel]
  | succ r ih =>
    rw [encRounds_succ_of_lt rk _ (by omega), ih (by omega), subbytes_invsubbytes, shiftrows_invshiftrows,
      blockAfterInvRound_of_pos rk s (by omega) hr, mixcolumns_invmixcolumns, addroundkey_cancel]

theorem encblock_decblock (s : Block) (rk : Schedule) : encblock (decblock s rk) rk = s := by
  rw [encblock_eq_encRounds, encRounds_ten, encRounds_decblock s rk (le_refl 9), subbytes_invsubbytes,
    shiftrows_invshiftrows, blockAfterInvRound_ten, addroundkey_cancel]

/-- Settles O37: each direction passes back through the blocks of the other. -/
theorem decblockInvertsEncblock : Obligations.DecblockInvertsEncblock := fun s rk =>
  ⟨decblock_encblock s rk, encblock_decblock s rk⟩

/-! ### Encryption by hand (rule R151, program P1) -/

theorem runCommands_cons {i : Instr} {s t : State} (h : exec i s = .next t) (is : List Instr) :
    runCommands (i :: is) s = runCommands is t := by
  rw [runCommands, h]

theorem runCommands_append (is js : List Instr) (s : State) :
    runCommands (is ++ js) s = (runCommands is s).bind (runCommands js) := by
  induction is generalizing s with
  | nil => rfl
  | cons i is ih =>
    obtain ⟨t, ht, -⟩ := exec_end i s
    rw [List.cons_append, runCommands_cons ht, runCommands_cons ht, ih]

/-- The commands of round `r + 1` by hand. -/
def roundCommands (r : Nat) : List Instr := [.subbytes, .shiftrows, .mixcolumns, .addroundkey (BitVec.ofNat 8 (r + 1))]

theorem handEncryption_eq : handEncryption =
    .addroundkey 0 :: ((List.range 9).flatMap roundCommands ++ [.subbytes, .shiftrows, .addroundkey 10]) := rfl

/-- `s` with a block in S, no error. -/
def withBlock (s : State) (b : Block) : State := { s with S := b, ERR := .ok }

theorem exec_subbytes_withBlock (s : State) (b : Block) :
    exec .subbytes (withBlock s b) = .next (withBlock s (subbytes b)) := rfl

theorem exec_shiftrows_withBlock (s : State) (b : Block) :
    exec .shiftrows (withBlock s b) = .next (withBlock s (shiftrows b)) := rfl

theorem exec_mixcolumns_withBlock (s : State) (b : Block) :
    exec .mixcolumns (withBlock s b) = .next (withBlock s (mixcolumns b)) := rfl

section
variable {s : State} (hk : s.RKV = true)
include hk

theorem exec_addroundkey_withBlock {a : Byte} {r : Nat} (hr : a.toNat = r) (h10 : r ≤ 10) (b : Block) :
    exec (.addroundkey a) (withBlock s b) = .next (withBlock s (addroundkey b (roundKey s.RK r))) := by
  subst hr
  exact exec_addroundkey_of_rkv h10 hk

theorem runCommands_round {r : Nat} (hr : r < 9) : runCommands (roundCommands r) (withBlock s (encRounds s.RK s.S r)) =
    some (withBlock s (encRounds s.RK s.S (r + 1))) := by
  have operand : (BitVec.ofNat 8 (r + 1)).toNat = r + 1 := by
    rw [BitVec.toNat_ofNat]
    omega
  rw [roundCommands, runCommands_cons (exec_subbytes_withBlock _ _), runCommands_cons (exec_shiftrows_withBlock _ _),
    runCommands_cons (exec_mixcolumns_withBlock _ _),
    runCommands_cons (exec_addroundkey_withBlock hk operand (by omega) _), encRounds_succ_of_lt _ _ hr, runCommands]

theorem runCommands_rounds {n : Nat} (hn : n ≤ 9) :
    runCommands ((List.range n).flatMap roundCommands) (withBlock s (encRounds s.RK s.S 0)) =
      some (withBlock s (encRounds s.RK s.S n)) := by
  induction n with
  | zero => rfl
  | succ n ih =>
    rw [List.range_succ, List.flatMap_append, runCommands_append, ih (by omega), List.flatMap_singleton]
    exact runCommands_round hk hn

theorem runCommands_last_round :
    runCommands [.subbytes, .shiftrows, .addroundkey 10] (withBlock s (encRounds s.RK s.S 9)) =
      some (withBlock s (encblock s.S s.RK)) := by
  rw [runCommands_cons (exec_subbytes_withBlock _ _), runCommands_cons (exec_shiftrows_withBlock _ _),
    runCommands_cons (exec_addroundkey_withBlock hk (r := 10) rfl (le_refl 10) _), encblock_eq_encRounds, encRounds_ten, runCommands]

end

/-- Settles O38: round by round the commands leave the blocks of ENCBLOCK. -/
theorem handEncryptionEqualsEncblock : Obligations.HandEncryptionEqualsEncblock := by
  intro s t hk h
  have first : exec (.addroundkey 0) s = .next (withBlock s (encRounds s.RK s.S 0)) :=
    exec_addroundkey_of_rkv (by decide) hk
  have last : exec .encblock s = .next (withBlock s (encblock s.S s.RK)) := exec_encblock_of_rkv hk
  rw [handEncryption_eq, runCommands_cons first, runCommands_append, runCommands_rounds hk (le_refl 9)]
  exact (runCommands_last_round hk).trans (congrArg some (Host.Outcome.next.inj (last.symm.trans h)))

end Sys2Proof.Machine
end

