-- ==== Sys2Proof/Proofs/ModeErrors.lean ====
section
/-! PROOFS. Proofs/ModeErrors.lean: which error the prologue of a mode command reports (45_modes.md rule R181). -/

namespace Sys2Proof.Machine

/-! ### The first check that fails -/

theorem modeCheck_of_klen {s : State} (h : s.KLEN ≠ 16#8) (M : Mode) : modeCheck M s = .invalidKeyLength := if_pos h

section
variable {M : Mode} {s : State} (hk : s.KLEN = 16#8)
include hk

theorem modeCheck_of_ivlen (hM : M.usesIv = true) (hv : s.IVLEN ≠ 16#8) : modeCheck M s = .invalidIvOrNonceLength := by
  rw [modeCheck, if_neg (not_not_intro hk), if_pos ⟨hM, hv⟩]

/-- The commands with a nonce have no IV, whose check would come first. -/
theorem modeCheck_of_nlen (hM : M.usesNonce = true) (hn : s.NLEN ≠ 8#8) : modeCheck M s = .invalidIvOrNonceLength := by
  have hv : ¬(M.usesIv = true ∧ s.IVLEN ≠ 16#8) := by
    cases M <;> simp [Mode.usesIv, Mode.usesNonce] at hM ⊢
  rw [modeCheck, if_neg (not_not_intro hk), if_neg hv, if_pos ⟨hM, hn⟩]

variable (hv : M.usesIv = true → s.IVLEN = 16#8) (hn : M.usesNonce = true → s.NLEN = 8#8)
include hv hn

theorem modeCheck_of_ilen (hl : s.params.MSG_CAP < s.ILEN.toNat) : modeCheck M s = .rangeError := by
  rw [modeCheck, if_neg (not_not_intro hk), if_neg fun h => h.2 (hv h.1), if_neg fun h => h.2 (hn h.1),
    if_pos (messageTooLong_of_lt hl)]

theorem modeCheck_of_edit (hM : M = .ctredit) (hl : s.ILEN.toNat ≤ s.params.MSG_CAP)
    (he : s.params.MSG_CAP < s.XLEN.toNat ∨ s.ILEN.toNat < s.XOFF.toNat + s.XLEN.toNat) :
    modeCheck M s = .rangeError := by
  have range : editOutOfRange s = true := by simpa [editOutOfRange] using he
  rw [modeCheck, if_neg (not_not_intro hk), if_neg fun h => h.2 (hv h.1), if_neg fun h => h.2 (hn h.1),
    if_neg (by simp [messageTooLong_of_le hl]), if_pos ⟨hM, range⟩]

end

/-- A failing check ends the command with its error. -/
theorem exec_mode_of_check {M : Mode} {s : State} {e : Err} (h : modeCheck M s = e) (he : e ≠ .ok) :
    exec M.instr s = .next (failedWith e s) := by
  subst h
  rw [exec_mode, prologue_err he]
  rfl

/-! ### The statement -/

/-- A property of the commands of a list of modes is one of the modes. -/
theorem forall_mem_modes {Ms : List Mode} {P : Instr → Prop} (h : ∀ M ∈ Ms, P M.instr) : ∀ i ∈ Ms.map Mode.instr, P i :=
  List.forall_mem_map.mpr h

theorem usesIv_of_mem : ∀ M ∈ [Mode.cbcenc, .cbcdec], M.usesIv = true ∧ M.usesNonce = false := by decide

theorem usesNonce_of_mem : ∀ M ∈ [Mode.ctrxor, .ctredit], M.usesNonce = true ∧ M.usesIv = false := by decide

theorem usesNeither_of_mem : ∀ M ∈ [Mode.ecbenc, .ecbdec], M.usesIv = false ∧ M.usesNonce = false := by decide

/-- Settles O42: each clause names the first check that fails. -/
theorem prologueReportsFirstError : Obligations.PrologueReportsFirstError := by
  refine fun s => ⟨fun hk => ?_, fun hk hv => ?_, fun hk hn => ?_, fun hk hl => ⟨?_, fun hv => ?_, fun hn => ?_⟩,
    fun hk hn hl he => ?_⟩
  · exact forall_mem_modes (Ms := [.ecbenc, .ecbdec, .cbcenc, .cbcdec, .ctrxor, .ctredit]) fun M _ =>
      exec_mode_of_check (modeCheck_of_klen hk M) nofun
  · exact forall_mem_modes (Ms := [.cbcenc, .cbcdec]) fun M hM =>
      exec_mode_of_check (modeCheck_of_ivlen hk (usesIv_of_mem M hM).1 hv) nofun
  · exact forall_mem_modes (Ms := [.ctrxor, .ctredit]) fun M hM =>
      exec_mode_of_check (modeCheck_of_nlen hk (usesNonce_of_mem M hM).1 hn) nofun
  · refine forall_mem_modes (Ms := [.ecbenc, .ecbdec]) fun M hM => ?_
    obtain ⟨noIv, noNonce⟩ := usesNeither_of_mem M hM
    exact exec_mode_of_check (modeCheck_of_ilen hk (by simp [noIv]) (by simp [noNonce]) hl) nofun
  · refine forall_mem_modes (Ms := [.cbcenc, .cbcdec]) fun M hM => ?_
    obtain ⟨-, noNonce⟩ := usesIv_of_mem M hM
    exact exec_mode_of_check (modeCheck_of_ilen hk (fun _ => hv) (by simp [noNonce]) hl) nofun
  · refine forall_mem_modes (Ms := [.ctrxor, .ctredit]) fun M hM => ?_
    obtain ⟨-, noIv⟩ := usesNonce_of_mem M hM
    exact exec_mode_of_check (modeCheck_of_ilen hk (by simp [noIv]) (fun _ => hn) hl) nofun
  · exact exec_mode_of_check (M := .ctredit) (modeCheck_of_edit hk nofun (fun _ => hn) rfl hl he) nofun

end Sys2Proof.Machine
end

