-- ==== Sys2Proof/Proofs/RoundTrips.lean ====
section
/-! PROOFS. Proofs/RoundTrips.lean: stripping undoes padding, so a decryption of a mode's output returns the message; the
chaining of CBC decryption block by block (44_padding.md, 45_modes.md rule R199). -/

namespace Sys2Proof.Machine

/-! ### Padding (rules R170, R171) -/

/-- Byte `k` of the message of `s`, padded. -/
def paddedByte (s : State) (k : Nat) : Byte :=
  if k < s.ILEN.toNat then Memory.read s.IBUF k else BitVec.ofNat 8 (16 - s.ILEN.toNat % 16)

theorem byteAt_paddedBlock (s : State) (k : Nat) : byteAt (paddedBlock s (k / 16)) (k % 16) = paddedByte s k := by
  rw [paddedBlock, byteAt_ofFn, dif_pos (Nat.mod_lt k (by decide))]
  simp only [Nat.div_add_mod]
  rfl

/-- The value of a padding byte is the number of padding bytes. -/
theorem toNat_padding_byte (n : Nat) : (BitVec.ofNat 8 (16 - n % 16)).toNat = 16 - n % 16 := by
  rw [BitVec.toNat_ofNat]
  omega

/-- The bytes of a sequence of `n` bytes, padded, are validly padded. -/
theorem validPadding_of_padded {f : Nat → Byte} {n len : Nat} (hlen : len = n + (16 - n % 16))
    (hf : ∀ k, n ≤ k → k < len → f k = BitVec.ofNat 8 (16 - n % 16)) :
    (f (len - 1)).toNat = 16 - n % 16 ∧ ValidPadding f len := by
  have last : f (len - 1) = BitVec.ofNat 8 (16 - n % 16) := hf _ (by omega) (by omega)
  have count : (f (len - 1)).toNat = 16 - n % 16 := by rw [last, toNat_padding_byte]
  refine ⟨count, by omega, by omega, by omega, by omega, fun j hj hlt => ?_⟩
  rw [hf j (by omega) hlt, last]

/-- Settles O41: the last byte of the padded message says how many bytes were added. -/
theorem stripUndoesPad : Obligations.StripUndoesPad := by
  intro m
  have len := pad_length m
  refine ⟨?_, by omega, by omega, by omega⟩
  obtain ⟨count, valid⟩ := validPadding_of_padded (f := fun k => (pad m).getD k 0#8) len fun k hk hlt => by
    rw [pad_getD m hlt, if_neg (Nat.not_lt.mpr hk)]
  rcases strip_eq (pad m) _ fun _ _ => rfl with ⟨-, hstrip⟩ | ⟨invalid, -⟩
  · rw [hstrip, count, len, Nat.add_sub_cancel, pad, List.take_left]
  · exact absurd valid invalid

/-! ### A decryption of padded bytes returns the message (rule R199(a)) -/

/-- Stripping the padded message of `s` returns it. -/
theorem message_of_stripOutcome {s u : State} {f : Nat → Byte} {o : Host.Outcome State Fault Refusal}
    (h : StripOutcome f u o) (hlen : u.ILEN.toNat = s.ILEN.toNat + (16 - s.ILEN.toNat % 16))
    (hf : ∀ k < s.ILEN.toNat + (16 - s.ILEN.toNat % 16), f k = paddedByte s k) :
    ∃ v, o = .next v ∧ v.ERR = .ok ∧ v.OLEN = s.ILEN ∧ ∀ k < s.ILEN.toNat, Memory.read v.OBUF k = Memory.read s.IBUF k := by
  obtain ⟨count, valid⟩ := validPadding_of_padded (f := f) hlen fun k hk hlt => by
    rw [hf k (by omega), paddedByte, if_neg (Nat.not_lt.mpr hk)]
  obtain ⟨v, ho, holen, hread, -, hframe⟩ := h.2 valid
  rw [count, hlen, Nat.add_sub_cancel] at holen
  refine ⟨v, ho, by rw [hframe], BitVec.eq_of_toNat_eq holen, fun k hk => ?_⟩
  rw [hread k (by omega), hf k (by omega), paddedByte, if_pos hk]

/-- A host's copy of an output holds its blocks. -/
theorem blockIn_copied {t u : State} (h : CopiedBack t u) {i : Nat} (hi : 16 * i + 16 ≤ t.OLEN.toNat) :
    blockIn u.IBUF i = blockIn t.OBUF i :=
  bytes_ext fun j hj => by rw [byteAt_blockIn _ _ hj, byteAt_blockIn _ _ hj, h.bytes _ (by omega)]

section
variable {s t u : State} (hk : s.KLEN = 16#8) (hl : s.ILEN.toNat + 16 ≤ s.params.MSG_CAP) (hc : CopiedBack t u)
include hk hl hc

/-- A copy of the whole blocks of a mode's output passes the checks of a decryption. -/
theorem copied_checks (hframe : t = { keyed s with S := t.S, OBUF := t.OBUF, OLEN := t.OLEN, ERR := .ok })
    (holen : t.OLEN.toNat = 16 * (s.ILEN.toNat / 16 + 1)) :
    u.KLEN = 16#8 ∧ u.KEYBUF = s.KEYBUF ∧ u.ILEN.toNat = s.ILEN.toNat + (16 - s.ILEN.toNat % 16) ∧
      u.ILEN.toNat ≤ u.params.MSG_CAP := by
  have hlen : u.ILEN.toNat = s.ILEN.toNat + (16 - s.ILEN.toNat % 16) := by rw [hc.length]; omega
  have hcap : u.params.MSG_CAP = s.params.MSG_CAP := by rw [hc.params, hframe]; rfl
  refine ⟨?_, ?_, hlen, by omega⟩
  · rw [hc.klen, hframe]
    exact hk
  · rw [hc.key, hframe]
    rfl

end

/-- Settles O50: block `i` of the copied output decrypts to block `i` of the padded message. -/
theorem ecbRoundTrip : Obligations.EcbRoundTrip := by
  intro s t u hs hk hl henc hc
  obtain ⟨-, enc⟩ := ecbencEncryptsEachBlock
  obtain ⟨t', ht', holen, hblocks, -, -, hframe⟩ := enc s hs hk (by omega)
  cases henc.symm.trans ht'
  obtain ⟨huk, hukey, hulen, hul⟩ := copied_checks hk hl hc hframe holen
  obtain ⟨-, dec⟩ := ecbdecDecryptsAndStrips
  refine message_of_stripOutcome ((dec u hc.inv huk hul).2 (by omega) (by omega)) hulen fun k hlt => ?_
  rw [blockIn_copied hc (by rw [← hc.length]; omega), hblocks _ (by omega), hukey, decblock_encblock, byteAt_paddedBlock]

/-- Block `i` of CBCENC's output, read back from it (rule R185). -/
theorem cbcenc_block {s t : State} (h0 : blockIn t.OBUF 0 = encblock (xorBytes (paddedBlock s 0) s.IVBUF) (expand s.KEYBUF))
    (hsucc : ∀ i < s.ILEN.toNat / 16, blockIn t.OBUF (i + 1) =
      encblock (xorBytes (paddedBlock s (i + 1)) (blockIn t.OBUF i)) (expand s.KEYBUF))
    {i : Nat} (hi : i ≤ s.ILEN.toNat / 16) : blockIn t.OBUF i =
      encblock (xorBytes (paddedBlock s i) (if i = 0 then s.IVBUF else blockIn t.OBUF (i - 1))) (expand s.KEYBUF) := by
  cases i with
  | zero => exact h0
  | succ i => exact hsucc i hi

/-- Settles O51: block `i` of the copied output decrypts to block `i` of the padded message XORed with the ciphertext block
before it, and that XOR is undone. -/
theorem cbcRoundTrip : Obligations.CbcRoundTrip := by
  intro s t u hs hk hv hl henc hc
  obtain ⟨-, enc⟩ := cbcencChainsBlocks
  obtain ⟨t', ht', holen, hfirst, hnext, -, -, hframe⟩ := enc s hs hk hv (by omega)
  cases henc.symm.trans ht'
  obtain ⟨huk, hukey, hulen, hul⟩ := copied_checks hk hl hc hframe holen
  have huiv : u.IVBUF = s.IVBUF := by rw [hc.iv, hframe]; rfl
  have huv : u.IVLEN = 16#8 := by rw [hc.ivlen, hframe]; exact hv
  obtain ⟨-, dec⟩ := cbcdecUnchainsAndStrips
  refine message_of_stripOutcome ((dec u hc.inv huk huv hul).2 (by omega) (by omega)) hulen fun k hlt => ?_
  have hcopied {i : Nat} (hi : i ≤ s.ILEN.toNat / 16) : blockIn u.IBUF i = blockIn t.OBUF i :=
    blockIn_copied hc (by omega)
  have hprevious : (if k / 16 = 0 then u.IVBUF else blockIn u.IBUF (k / 16 - 1)) =
      if k / 16 = 0 then s.IVBUF else blockIn t.OBUF (k / 16 - 1) := by
    rw [huiv, hcopied (by omega)]
  rw [← byteAt_previous_block u.IVBUF u.IBUF k, hprevious, hcopied (by omega), cbcenc_block hfirst hnext (by omega), hukey,
    decblock_encblock, byteAt_xorBytes _ _ (Nat.mod_lt k (by decide)), BitVec.xor_assoc, BitVec.xor_self, BitVec.xor_zero,
    byteAt_paddedBlock]

/-- Settles O52: the keystream does not depend on the message, and XORing it twice leaves the message. -/
theorem ctrRoundTrip : Obligations.CtrRoundTrip := by
  intro s t u hs hk hn hl henc hc
  obtain ⟨-, xor⟩ := ctrxorXorsKeystream
  obtain ⟨t', ht', holen, hread, -, -, hframe⟩ := xor s hs hk hn hl
  cases henc.symm.trans ht'
  have hup : u.params = s.params := by rw [hc.params, hframe]; rfl
  have hukey : u.KEYBUF = s.KEYBUF := by rw [hc.key, hframe]; rfl
  have hunonce : u.NBUF = s.NBUF := by rw [hc.nonce, hframe]; rfl
  have huk : u.KLEN = 16#8 := by rw [hc.klen, hframe]; exact hk
  have hun : u.NLEN = 8#8 := by rw [hc.nlen, hframe]; exact hn
  have hulen : u.ILEN = s.ILEN := hc.length.trans holen
  obtain ⟨v, hv, hvlen, hvread, -, -, hvframe⟩ := xor u hc.inv huk hun (by rw [hulen, hup]; exact hl)
  refine ⟨v, hv, by rw [hvframe], hvlen.trans hulen, fun k hlt => ?_⟩
  rw [hvread k (hulen ▸ hlt), hc.bytes k (holen ▸ hlt), hread k hlt, hup, hukey, hunonce, BitVec.xor_assoc, BitVec.xor_self,
    BitVec.xor_zero]

/-! ### The chaining of CBC decryption (rules R186, R199(b)) -/

theorem cbcDecChain_getElem? (rk : Schedule) (prev : Block) (cs : List Block) (k : Nat) :
    (cbcDecChain rk prev cs)[k]? =
      cs[k]?.map fun c => xorBytes (decblock c rk) (if k = 0 then prev else cs.getD (k - 1) prev) := by
  induction cs generalizing prev k with
  | nil => rfl
  | cons c cs ih =>
    cases k with
    | zero => rfl
    | succ k =>
      rw [cbcDecChain, List.getElem?_cons_succ, List.getElem?_cons_succ, ih]
      cases k with
      | zero => rfl
      | succ k =>
        by_cases h : k < cs.length
        · simp [List.getD, h]
        · simp [List.getElem?_eq_none (show cs.length ≤ k + 1 by omega)]

theorem xorBytes_assoc {n : Nat} (u v w : Bytes n) : xorBytes (xorBytes u v) w = xorBytes u (xorBytes v w) :=
  bytes_ext fun i hi => by
    rw [byteAt_xorBytes _ _ hi, byteAt_xorBytes _ _ hi, byteAt_xorBytes _ _ hi, byteAt_xorBytes _ _ hi, BitVec.xor_assoc]

/-- A change of one block leaves every other. -/
theorem getD_set_of_ne {cs : List Block} {i j : Nat} (h : i ≠ j) (c d : Block) : (cs.set i c).getD j d = cs.getD j d := by
  rw [List.getD, List.getD, List.getElem?_set_ne h]

/-- Settles O53: decrypted block `k` is made of ciphertext blocks `k` and `k - 1`. -/
theorem cbcChainingSensitivity : Obligations.CbcChainingSensitivity := by
  intro rk iv d cs i h t t'
  simp only [t, t']
  refine ⟨fun k hi hs => ?_, fun hlt => ?_, ?_⟩
  · rw [cbcDecChain_getElem?, cbcDecChain_getElem?, List.getElem?_set_ne hi.symm]
    cases k with
    | zero => rfl
    | succ k => rw [Nat.add_sub_cancel, getD_set_of_ne (by omega)]
  · have hprevious : (cs.set i (xorBytes cs[i] d)).getD i iv = xorBytes (cs.getD i iv) d := by
      simp [List.getD, h]
    rw [cbcDecChain_getElem?, cbcDecChain_getElem?, List.getElem?_set_ne (by omega), Option.map_map,
      if_neg (Nat.succ_ne_zero i), if_neg (Nat.succ_ne_zero i), Nat.add_sub_cancel, hprevious]
    refine congrArg (Option.map · _) (funext fun c => ?_)
    exact (xorBytes_assoc _ _ _).symm
  · rw [cbcDecChain_getElem?, List.getElem?_set_self h, Option.map_some]
    cases i with
    | zero => rfl
    | succ i => rw [Nat.add_sub_cancel, getD_set_of_ne (by omega)]

end Sys2Proof.Machine
end

