-- ==== Sys2Proof/Proofs/Purity.lean ====
section
/-! PROOFS. Proofs/Purity.lean: the result of a mode command is computed from its inputs alone: two states that agree on
them pass the same checks, put the same bytes through the block cipher and end alike (45_modes.md rule R180). -/

namespace Sys2Proof.Machine

/-! ### What each mode command does on the expanded key -/

/-- The end of a decryption: the length check, then the bytes `ps` stripped (rules R183, R186). -/
def decryptionEnd (ps : List Byte) (outs : List Block) (s : State) : State :=
  if raggedMessage s then raise true .paddingError (keyed s) else stripToOutput ps (State.ranBlocks outs (keyed s))

theorem ecbencBody_keyed (s : State) :
    ecbencBody (keyed s) = putResult (joinBlocks (ecbCiphertext s)) (ecbCiphertext s) (keyed s) := rfl

theorem ecbdecBody_keyed (s : State) :
    ecbdecBody (keyed s) = decryptionEnd (joinBlocks (decryptedBlocks s)) (decryptedBlocks s) s := rfl

theorem cbcencBody_keyed (s : State) :
    cbcencBody (keyed s) = putResult (joinBlocks (cbcCiphertext s)) (cbcCiphertext s) (keyed s) := rfl

theorem cbcdecBody_keyed (s : State) :
    cbcdecBody (keyed s) = decryptionEnd (joinBlocks (cbcPlaintext s)) (decryptedBlocks s) s := rfl

theorem ctrxorBody_keyed (s : State) :
    ctrxorBody (keyed s) = putResult (ctrxorOutput s) (ctrxorKeystream s) (keyed s) := by
  rw [ctrxorOutput, ctrxorKeystream, keystreamFrom, ← List.range_eq_range']
  rfl

theorem ctreditBody_keyed (s : State) :
    ctreditBody (keyed s) = putResult (editOutput s) (editKeystream s) (keyed s) := by
  rw [editOutput, editKeystream, keystreamFrom, ← editBlocks_eq_range']
  rfl

/-! ### The same inputs give the same checks and the same bytes -/

section
variable {s s' : State} (h : SameInputs s s')
include h

theorem message_of_sameInputs : message s = message s' := by
  rw [message, message, ← h.ilen]
  exact readBytes_congr h.message

theorem modeCheck_of_sameInputs (M : Mode) : modeCheck M s = modeCheck M s' := by
  have fits : messageTooLong s = messageTooLong s' := by
    rw [messageTooLong, messageTooLong, h.params, h.ilen]
  have edit : editOutOfRange s = editOutOfRange s' := by
    rw [editOutOfRange, editOutOfRange, h.params, h.ilen, h.xlen, h.xoff]
  rw [modeCheck, modeCheck, fits, edit, h.klen, h.ivlen, h.nlen]

theorem raggedMessage_of_sameInputs : raggedMessage s = raggedMessage s' := by
  rw [raggedMessage, raggedMessage, h.ilen]

theorem ecbCiphertext_of_sameInputs : ecbCiphertext s = ecbCiphertext s' := by
  rw [ecbCiphertext, ecbCiphertext, message_of_sameInputs h, h.key]

theorem decryptedBlocks_of_sameInputs : decryptedBlocks s = decryptedBlocks s' := by
  rw [decryptedBlocks, decryptedBlocks, message_of_sameInputs h, h.key]

theorem cbcCiphertext_of_sameInputs : cbcCiphertext s = cbcCiphertext s' := by
  rw [cbcCiphertext, cbcCiphertext, message_of_sameInputs h, h.key, h.iv]

theorem cbcPlaintext_of_sameInputs : cbcPlaintext s = cbcPlaintext s' := by
  rw [cbcPlaintext, cbcPlaintext, message_of_sameInputs h, h.key, h.iv]

theorem keystreamFrom_of_sameInputs (first n : Nat) : keystreamFrom s first n = keystreamFrom s' first n := by
  refine List.map_congr_left fun i _ => ?_
  show encblock (ctrblock s.params.CTR_BIG_ENDIAN s.NBUF i) (expand s.KEYBUF) = _
  rw [h.params, h.nonce, h.key]
  rfl

theorem ctrxorOutput_of_sameInputs : ctrxorOutput s = ctrxorOutput s' := by
  rw [ctrxorOutput, ctrxorOutput, ctrxorKeystream, ctrxorKeystream, message_of_sameInputs h,
    keystreamFrom_of_sameInputs h, h.ilen]

theorem editKeystream_of_sameInputs : editKeystream s = editKeystream s' := by
  rw [editKeystream, editKeystream, editBlockCount, editBlockCount, keystreamFrom_of_sameInputs h, h.xoff, h.xlen]

theorem editOutput_of_sameInputs : editOutput s = editOutput s' := by
  rw [editOutput, editOutput, editKeystream_of_sameInputs h, h.xoff]
  show (List.range s.ILEN.toNat).map _ = (List.range s'.ILEN.toNat).map _
  rw [← h.ilen]
  refine List.map_congr_left fun k hk => ?_
  have hk : k < s.ILEN.toNat := List.mem_range.mp hk
  show (if s.XOFF.toNat ≤ k ∧ k < s.XOFF.toNat + s.XLEN.toNat then Memory.read s.XBUF (k - s.XOFF.toNat) ^^^ _
    else Memory.read s.IBUF k) = if s'.XOFF.toNat ≤ k ∧ k < s'.XOFF.toNat + s'.XLEN.toNat then
      Memory.read s'.XBUF (k - s'.XOFF.toNat) ^^^ _ else Memory.read s'.IBUF k
  rw [← h.xoff, ← h.xlen]
  refine ite_congr rfl (fun hedit => ?_) fun _ => h.message k hk
  rw [h.newBytes _ (by omega)]

end

/-! ### The same bytes give the same result -/

/-- Two ends of a mode command that a host cannot tell apart by ERR, OLEN and the output, nor, on success, by the key. -/
def SameResult (t t' : State) : Prop :=
  t.ERR = t'.ERR ∧ t.OLEN = t'.OLEN ∧ (∀ k < t.OLEN.toNat, Memory.read t.OBUF k = Memory.read t'.OBUF k) ∧
    (t.ERR = .ok → t.RK = t'.RK ∧ t.RKV = t'.RKV)

theorem sameResult_raise {e : Err} (he : e ≠ .ok) (s s' : State) : SameResult (raise true e s) (raise true e s') :=
  ⟨rfl, rfl, fun _ hk => absurd hk (Nat.not_lt_zero _), fun h => absurd h he⟩

section
variable {s s' : State} (hs : s.Inv) (hs' : s'.Inv) (hkey : s.KEYBUF = s'.KEYBUF)
include hs hs' hkey

theorem sameResult_putResult (r : List Byte) (outs outs' : List Block) :
    SameResult (putResult r outs (keyed s)) (putResult r outs' (keyed s')) := by
  refine ⟨rfl, rfl, fun k hk => ?_, fun _ => ⟨congrArg expand hkey, rfl⟩⟩
  have hlt : k < r.length := by
    refine lt_of_lt_of_le hk ?_
    show (BitVec.ofNat 32 r.length).toNat ≤ r.length
    rw [BitVec.toNat_ofNat]
    exact Nat.mod_le _ _
  rw [read_putResult rfl hs, read_putResult rfl hs', if_pos hlt, if_pos hlt]

theorem sameResult_decryptionEnd (hr : raggedMessage s = raggedMessage s') (ps : List Byte) (outs outs' : List Block) :
    SameResult (decryptionEnd ps outs s) (decryptionEnd ps outs' s') := by
  rw [decryptionEnd, decryptionEnd, ← hr]
  split
  · exact sameResult_raise (e := .paddingError) nofun _ _
  · rw [stripToOutput, stripToOutput]
    cases strip ps with
    | none => exact sameResult_raise (e := .paddingError) nofun _ _
    | some r => exact sameResult_putResult hs hs' hkey r outs outs'

end

theorem sameResult_body {s s' : State} (hs : s.Inv) (hs' : s'.Inv) (h : SameInputs s s') (M : Mode) :
    SameResult (M.body (keyed s)) (M.body (keyed s')) := by
  have put := sameResult_putResult hs hs' h.key
  have dec := sameResult_decryptionEnd hs hs' h.key (raggedMessage_of_sameInputs h)
  cases M with
  | ecbenc =>
    rw [Mode.body, ecbencBody_keyed, ecbencBody_keyed, ecbCiphertext_of_sameInputs h]
    exact put _ _ _
  | ecbdec =>
    rw [Mode.body, ecbdecBody_keyed, ecbdecBody_keyed, decryptedBlocks_of_sameInputs h]
    exact dec _ _ _
  | cbcenc =>
    rw [Mode.body, cbcencBody_keyed, cbcencBody_keyed, cbcCiphertext_of_sameInputs h]
    exact put _ _ _
  | cbcdec =>
    rw [Mode.body, cbcdecBody_keyed, cbcdecBody_keyed, cbcPlaintext_of_sameInputs h]
    exact dec _ _ _
  | ctrxor =>
    rw [Mode.body, ctrxorBody_keyed, ctrxorBody_keyed, ctrxorOutput_of_sameInputs h]
    exact put _ _ _
  | ctredit =>
    rw [Mode.body, ctreditBody_keyed, ctreditBody_keyed, editOutput_of_sameInputs h]
    exact put _ _ _

/-- Settles O54: the same checks decide, and past them the same bytes are put out. -/
theorem modeCommandsArePure : Obligations.ModeCommandsArePure := by
  intro s s' t t' hs hs' h
  refine forall_mem_modes (Ms := [.ecbenc, .ecbdec, .cbcenc, .cbcdec, .ctrxor, .ctredit]) fun M _ ht ht' => ?_
  cases (exec_mode M s).symm.trans ht
  cases (exec_mode M s').symm.trans ht'
  have check := modeCheck_of_sameInputs h M
  by_cases hc : modeCheck M s = .ok
  · rw [prologue_ok hc, prologue_ok (check.symm.trans hc)]
    exact sameResult_body hs hs' h M
  · rw [prologue_err hc, prologue_err (check ▸ hc), ← check]
    exact sameResult_raise hc s s'

end Sys2Proof.Machine
end

