-- ==== Sys2Proof/Proofs/Relocation.lean ====
section
/-! PROOFS. Proofs/Relocation.lean: moving the window and the host's accesses together changes nothing: the window offset of
an access stays, and no operation of the engine reads BASE (00_scope.md rule R6, 20_memory.md rules R60, R70). -/

namespace Sys2Proof.Machine

/-- An outcome with its state's window moved. -/
def relocateOutcome (d : Nat) : Host.Outcome State Fault Refusal → Host.Outcome State Fault Refusal
  | .next t => .next (t.relocate d)
  | .fault r => .fault r
  | .refused r => .refused r

/-! ### The window -/

theorem windowOffset_relocate (p : Params) (d addr : Nat) :
    windowOffset { p with BASE := p.BASE + d } (addr + d) = windowOffset p addr := by
  simp only [windowOffset, Nat.add_sub_add_right]
  exact if_congr (by omega) rfl rfl

theorem admitted_relocate (s : State) (d addr n : Nat) :
    admitted (s.relocate d).params (addr + d) n = admitted s.params addr n := by
  show admitted { s.params with BASE := s.params.BASE + d } (addr + d) n = _
  rw [admitted, windowOffset_relocate]
  rfl

/-! ### The engine's operations -/

section
variable (d : Nat) (s : State)

theorem stripToOutput_relocate (r : List Byte) : stripToOutput r (s.relocate d) = (stripToOutput r s).relocate d := by
  unfold stripToOutput
  cases strip r <;> rfl

theorem body_relocate (M : Mode) : M.body (s.relocate d) = (M.body s).relocate d := by
  cases M with
  | ecbenc | cbcenc | ctrxor | ctredit => rfl
  | ecbdec =>
    rw [Mode.body, ecbdecBody, ecbdecBody, apply_ite (State.relocate d), ← stripToOutput_relocate]
    rfl
  | cbcdec =>
    rw [Mode.body, cbcdecBody, cbcdecBody, apply_ite (State.relocate d), ← stripToOutput_relocate]
    rfl

theorem exec_mode_relocate (M : Mode) : exec M.instr (s.relocate d) = relocateOutcome d (exec M.instr s) := by
  rw [exec_mode, exec_mode, prologue, prologue]
  have body : M.body (s.relocate d).expandKey = (M.body s.expandKey).relocate d := body_relocate d s.expandKey M
  rw [body, relocateOutcome, apply_ite (State.relocate d)]
  rfl

theorem exec_relocate (i : Instr) : exec i (s.relocate d) = relocateOutcome d (exec i s) := by
  cases i with
  | nop | clear | gfmul | sbox | isbox | wxor | rotword | subword | subbytes | invsubbytes | shiftrows | invshiftrows
  | mixcolumns | invmixcolumns => rfl
  | rcon a =>
    simp only [exec, execRcon, apply_ite (relocateOutcome d)]
    rfl
  | keyexpand =>
    simp only [exec, execKeyexpand, apply_ite (relocateOutcome d)]
    rfl
  | addroundkey a =>
    simp only [exec, execAddroundkey, apply_ite (relocateOutcome d)]
    rfl
  | encblock =>
    simp only [exec, execEncblock, apply_ite (relocateOutcome d)]
    rfl
  | decblock =>
    simp only [exec, execDecblock, apply_ite (relocateOutcome d)]
    rfl
  | pad =>
    simp only [exec, execPad, apply_ite (relocateOutcome d)]
    rfl
  | strip =>
    simp only [exec, execStrip, apply_ite (relocateOutcome d)]
    exact if_congr Iff.rfl rfl (congrArg Host.Outcome.next (stripToOutput_relocate d s (message s)))
  | ecbenc => exact exec_mode_relocate d s .ecbenc
  | ecbdec => exact exec_mode_relocate d s .ecbdec
  | cbcenc => exact exec_mode_relocate d s .cbcenc
  | cbcdec => exact exec_mode_relocate d s .cbcdec
  | ctrxor => exact exec_mode_relocate d s .ctrxor
  | ctredit => exact exec_mode_relocate d s .ctredit

theorem command_relocate (w : Word32) : command w (s.relocate d) = relocateOutcome d (command w s) := by
  unfold command
  cases decode w with
  | ok i => exact exec_relocate d s i
  | error e => rfl

/-! ### The bus -/

theorem readReg_relocate (r : Reg) : (s.relocate d).readReg r = s.readReg r := by cases r <;> rfl

theorem readByte_relocate (A : Arr) (i : Nat) : (s.relocate d).readByte A i = s.readByte A i := by cases A <;> rfl

theorem writeReg_relocate (r : Reg) (v : Word32) : (s.relocate d).writeReg r v = (s.writeReg r v).relocate d := by
  cases r <;> rfl

theorem writeByte_relocate (A : Arr) (i : Nat) (b : Byte) :
    (s.relocate d).writeByte A i b = (s.writeByte A i b).relocate d := by
  cases A <;> rfl

theorem notAdmitted_relocate (seen : Reply) :
    notAdmitted seen (s.relocate d) = relocateOutcome d (notAdmitted seen s) := by
  have response : (s.relocate d).params.BUS_FAULT_RESPONSE = s.params.BUS_FAULT_RESPONSE := rfl
  unfold notAdmitted
  rw [response]
  cases s.params.BUS_FAULT_RESPONSE <;> rfl

theorem serveRead_relocate (addr n : Nat) :
    serveRead (addr + d) n (s.relocate d) = relocateOutcome d (serveRead addr n s) := by
  unfold serveRead
  rw [admitted_relocate]
  rcases admitted s.params addr n with _ | r | ⟨A, i⟩
  · exact notAdmitted_relocate d s _
  · simp only [readReg_relocate]
    rfl
  · simp only [readByte_relocate]
    rfl

theorem serveWrite_relocate (addr n : Nat) (v : Word32) :
    serveWrite (addr + d) n v (s.relocate d) = relocateOutcome d (serveWrite addr n v s) := by
  unfold serveWrite
  rw [admitted_relocate]
  rcases admitted s.params addr n with _ | r | ⟨A, i⟩
  · exact notAdmitted_relocate d s _
  · cases r with
    | CMD => exact command_relocate d (State.reply .done s) v
    | STATUS | RES | KLEN | IVLEN | NLEN | ILEN | OLEN | XLEN | XOFF => rfl
  · simp only [writeByte_relocate]
    rfl

theorem serve_relocate (ev : BusEvent) : serve (ev.relocate d) (s.relocate d) = relocateOutcome d (serve ev s) := by
  cases ev with
  | read addr n => exact serveRead_relocate d s addr n
  | write addr n v => exact serveWrite_relocate d s addr n v
  | reset | resetDuring => rfl

theorem step_relocate : step (s.relocate d) = relocateOutcome d (step s) := by
  have pending : (s.relocate d).pending = s.pending.map (BusEvent.relocate d) := rfl
  rw [step, step, pending]
  cases h : s.pending with
  | nil => rfl
  | cons ev rest => exact serve_relocate d { s with pending := rest } ev

end

/-- Settles O16: the step of the moved machine is the step, moved. -/
theorem baseAddressIsImmaterial : Obligations.BaseAddressIsImmaterial := by
  refine fun s d => ⟨fun t h => ?_, fun r h => ?_, fun r h => ?_⟩ <;> rw [step_relocate, h] <;> rfl

end Sys2Proof.Machine
end
